-- ==== Sys2Proof/Config.lean ====
section
/-! DEFINITION. The parameters of the block that spec R6 marks "decision", each a field with R6's value as default.

What R6 marks "source" only (the word width 32, the field places 31..27, 26, 25..0, the limit 26) is a constant of the
rules and stands in the definitions. DEDUCED (log 6). There is no free value: spec/92 leaves no row open. -/

namespace Sys2Proof

/-- The four conditions that can end a request (R150). Each is delivered in the response and stops nothing (R155). -/
inductive Condition where
  /-- ENCODE: the string is not accepted (R151). -/
  | malformedNumber
  /-- DIV: the divisor's value field is 0 (R152). -/
  | divisionByZero
  /-- DIV: the exact quotient has no finite decimal expansion (R153). -/
  | inexactQuotient
  /-- A reserved `req.op`, or ENCODE with `req.len > 32` (R154). -/
  | illegalRequest
  deriving DecidableEq, Repr

/-- `LAYOUT`: which word layout. One is implemented: the builder "must pick one canonical layout" and "not preserve both"
(R6, D1; the two's-complement draft is out of scope, R5 (d)). -/
inductive Layout where
  /-- Pointer bits 31 to 27, sign bit 26, value bits 25 to 0 (R20). -/
  | signMagnitude
  deriving DecidableEq, Repr

/-- `DIV_DIGITS`: how many fractional digits an exact quotient gets (R126). -/
inductive QuotientDigits where
  /-- The least number of digits that holds the quotient exactly. -/
  | fewest
  deriving DecidableEq, Repr

/-- The parameters of R6 that a builder might vary, with the value the spec decides. -/
structure Config where
  /-- `LAYOUT` (D1). -/
  layout : Layout := .signMagnitude
  /-- `POS_SIGN`: what DECODE prints before a non-negative number (D2). -/
  posSign : List (BitVec 8) := []
  /-- `CHARSET`: the code of `'-'` (R10, D7). -/
  minusChar : BitVec 8 := 0x2D
  /-- `CHARSET`: the code of `'.'` (R10, D7). -/
  dotChar : BitVec 8 := 0x2E
  /-- `CHARSET`: the code of `'0'`; the ten digits follow each other up to `'9'` (R10, D7). -/
  zeroChar : BitVec 8 := 0x30
  /-- `STR_MAX`: most bytes a string holds (D20). -/
  strMax : Nat := 32
  /-- `PARSE_BITS`: width of the unsigned integer the digit parser returns (D9). -/
  parseBits : Nat := 32
  /-- `BITLEN_BITS`: width of the BITLEN operand (D19). -/
  bitlenBits : Nat := 32
  /-- `OP_BITS`: width of the operation code (D13). -/
  opBits : Nat := 4
  /-- `STATUS_BITS`: width of the status code (D14). -/
  statusBits : Nat := 3
  /-- `DIV_INEXACT`: the condition DIV raises on a quotient that does not terminate (D3). -/
  divInexact : Condition := .inexactQuotient
  /-- `DIV_DIGITS` (D4). -/
  divDigits : QuotientDigits := .fewest
  /-- `ZERO_DIGITS`: `dec_digits(0)` (D5). -/
  zeroDigits : Nat := 0
  deriving DecidableEq, Repr

end Sys2Proof
end

