-- ==== Sys2Proof/Machine/Params.lean ====
section
/-! DEFINITION. The block's parameters: the values spec R6 decides. -/

namespace Sys2Proof.Machine

/-- Every parameter at the value of R6 (spec/92 leaves none open). -/
abbrev params : Config := {}

end Sys2Proof.Machine
end

