-- ==== Sys2Proof/Word.lean ====
section
/-! DEFINITION. The widths that cross the ports of the block (spec R20, R32, R43, R50, R51).

The widths R6 decides are read from the parameters; the word's 32 bits (R6 "source"), the 6 bits of a length and the 32
byte lanes are constants of the format. -/

namespace Sys2Proof

/-- A packed word (R20) or another 32-bit quantity at a port (R50, R51). Bit 0 is the least significant bit (R7). -/
abbrev Word := BitVec 32

/-- The plain unsigned operand of BITLEN, `BITLEN_BITS` wide (R71). -/
abbrev BitlenOperand := BitVec Machine.params.bitlenBits

/-- One character of a string (R10: one byte per character). -/
abbrev Byte := BitVec 8

/-- `req.op`, `OP_BITS` wide (R50). -/
abbrev OpCode := BitVec Machine.params.opBits

/-- `rsp.status`, `STATUS_BITS` wide (R51). -/
abbrev StatusCode := BitVec Machine.params.statusBits

/-- `req.len` and `rsp.len`, 6 bits (R50, R51). -/
abbrev StrLen := BitVec 6

/-- The 32 byte lanes of a string, lane 0 the first character (R56). -/
abbrev Lanes := Vector Byte 32

/-- All 32 lanes 0x00. -/
abbrev Lanes.zero : Lanes := Vector.replicate 32 0

end Sys2Proof
end

