-- ==== Sys2Proof/Syntax.lean ====
section
/-! DEFINITION. Requests as the host presents them (spec R50) and the eight operations they name (spec R52). -/

namespace Sys2Proof

/-- The request format `REQ`: one length, one format, whatever the operation (R50). -/
structure Request where
  op  : OpCode
  a   : Word
  b   : Word
  len : StrLen
  str : Lanes
  deriving DecidableEq, Repr

/-- One constructor per row of the operation map, each with the fields its operation reads (R52, R53). -/
inductive Instr where
  /-- BITLEN (R71): `a` is a plain unsigned integer. -/
  | bitlen (a : BitlenOperand)
  /-- ENCODE (R79): the string is lanes 0 to `len - 1`. -/
  | encode (len : StrLen) (str : Lanes)
  /-- DECODE (R82): `a` is any 32-bit word. -/
  | decode (a : Word)
  /-- ADD (R104). -/
  | add (a b : Word)
  /-- SUB (R105): `a` the minuend, `b` the subtrahend. -/
  | sub (a b : Word)
  /-- MUL (R120). -/
  | mul (a b : Word)
  /-- DIV (R124): `a` the dividend, `b` the divisor. -/
  | div (a b : Word)
  /-- NEG (R140). -/
  | neg (a : Word)
  deriving DecidableEq, Repr

end Sys2Proof
end

