-- ==== Sys2Proof/Decode.lean ====
section
/-! DEFINITION. From request fields to an instruction and back (spec R50 to R53).

The encoding of an instruction IS the tuple of request fields (R57); the spec defines no packing of them into bits or
bytes (R50, R41), so the decoder reads a `Request` and the encoder writes one. -/

namespace Sys2Proof

/-- What the decoder answers: an instruction, or the rejection by name. -/
inductive Decoded where
  /-- `req.op` selects this operation on these operands. -/
  | instr (i : Instr)
  /-- `req.op` is 0x0 or 0x9 to 0xF and selects nothing (R54). -/
  | reservedOp (op : OpCode)
  deriving DecidableEq, Repr

/-- The operation map of R52; total on any request. -/
def decode (r : Request) : Decoded :=
  match r.op with
  | 0x1#4 => .instr (.bitlen r.a)
  | 0x2#4 => .instr (.encode r.len r.str)
  | 0x3#4 => .instr (.decode r.a)
  | 0x4#4 => .instr (.add r.a r.b)
  | 0x5#4 => .instr (.sub r.a r.b)
  | 0x6#4 => .instr (.mul r.a r.b)
  | 0x7#4 => .instr (.div r.a r.b)
  | 0x8#4 => .instr (.neg r.a)
  | op => .reservedOp op

/-- A request with this operation code and zero in every other field. -/
def blankRequest (op : OpCode) : Request :=
  { op := op, a := 0, b := 0, len := 0, str := Lanes.zero }

/-- The request fields of an instruction (R52, R57). DESIGN CHOICE (log 5): fields the operation does not read are 0;
R53 lets any value stand there. -/
def encode : Instr → Request
  | .bitlen a => { blankRequest 0x1 with a := a }
  | .encode len str => { blankRequest 0x2 with len := len, str := str }
  | .decode a => { blankRequest 0x3 with a := a }
  | .add a b => { blankRequest 0x4 with a := a, b := b }
  | .sub a b => { blankRequest 0x5 with a := a, b := b }
  | .mul a b => { blankRequest 0x6 with a := a, b := b }
  | .div a b => { blankRequest 0x7 with a := a, b := b }
  | .neg a => { blankRequest 0x8 with a := a }

/-- The request with zero in every field its operation does not read (R52's column "reads"). -/
def readFields (r : Request) : Request :=
  match r.op with
  | 0x1#4 | 0x3#4 | 0x8#4 => { blankRequest r.op with a := r.a }
  | 0x2#4 => { blankRequest r.op with len := r.len, str := r.str }
  | 0x4#4 | 0x5#4 | 0x6#4 | 0x7#4 => { blankRequest r.op with a := r.a, b := r.b }
  | op => blankRequest op

/-- The request that a word of spec/opcode_table.json stands for: the table's bits 3..0 are `req.op[3:0]` (R52: match and
mask are over the 4-bit `req.op`) and every other field is 0. DESIGN CHOICE (log 4): bits above bit 3 name no field. -/
def tableRequest (nbits w : Nat) : Request := blankRequest (BitVec.ofNat Machine.params.opBits (w % 2 ^ nbits))

/-- The instruction the decoder reads from a word of spec/opcode_table.json. -/
def decodeTableWord (nbits w : Nat) : Option Instr :=
  match decode (tableRequest nbits w) with
  | .instr i => some i
  | .reservedOp _ => none

end Sys2Proof
end

