-- ==== Sys2Proof/Machine/Numerals.lean ====
section
/-! DEFINITION. The number functions every rule uses (spec R9): bit length, decimal digits, exponents of 2 and 5. -/

namespace Sys2Proof.Machine

/-- `bit_length(n)`, for `n` of any size: "the position of the highest set bit plus one; `bit_length(0) = 0`" (R70). -/
def bitLength (n : Nat) : Nat := if n = 0 then 0 else Nat.log2 n + 1

/-- The decimal digits of `n`, most significant first, as long as `fuel` lasts; none for 0. -/
def decimalDigitsFuel : Nat → Nat → List Nat
  | 0, _ => []
  | fuel + 1, n => if n = 0 then [] else decimalDigitsFuel fuel (n / 10) ++ [n % 10]

/-- The decimal digits of `n` without leading zeros, most significant first; none for 0. A number has no more digits
than its own value, so `n` is fuel enough. -/
def decimalDigits (n : Nat) : List Nat := decimalDigitsFuel n n

/-- `dec_digits(n)` (R9): the number of decimal digits, with `dec_digits(0)` the parameter `ZERO_DIGITS` (D5). -/
def decDigits (n : Nat) : Nat := if n = 0 then params.zeroDigits else (decimalDigits n).length

/-- The character of one decimal digit (R10). -/
def digitChar (d : Nat) : Byte := params.zeroChar + BitVec.ofNat 8 d

/-- `dec_str(n)` (R9, R83): decimal, no leading zeros, the single digit `"0"` for 0. -/
def decStr (n : Nat) : List Byte :=
  if n = 0 then [params.zeroChar] else (decimalDigits n).map digitChar

/-- The number of times `p` divides `n`, as long as `fuel` lasts. -/
def exponentFuel : Nat → Nat → Nat → Nat
  | 0, _, _ => 0
  | fuel + 1, p, n => if n % p = 0 then exponentFuel fuel p (n / p) + 1 else 0

/-- "the largest e with p^e dividing n" (R124), for `n > 0` and `p` 2 or 5; `n` is fuel enough. -/
def exponentOf (p n : Nat) : Nat := exponentFuel n p n

end Sys2Proof.Machine
end

