-- ==== Sys2Proof/Machine/Operands.lean ====
section
/-! DEFINITION. How operands are taken apart and results put together: the packed word (spec R20, R75, R76), the scaled
integer (spec R101), the result triple of the engine (spec R100), the request string (spec R56). -/

namespace Sys2Proof.Machine

/-- `pointer = w[31:27]` (R20). -/
def pointerField (w : Word) : Nat := (w.extractLsb' 27 5).toNat

/-- The sign a word carries in a layout: in sign-magnitude, bit 26 (R20, R22). -/
def signIn (layout : Layout) (w : Word) : Bool :=
  match layout with
  | .signMagnitude => w.getLsbD 26

/-- `sign = w[26]` (R20, R22), in the layout of the block. -/
def signBit (w : Word) : Bool := signIn params.layout w

/-- `value = w[25:0]` (R20, R23). -/
def valueField (w : Word) : Nat := (w.extractLsb' 0 26).toNat

/-- The logical form `(is_negative, integer_part, fractional_part)` (R28). -/
@[ext] structure Logical where
  neg  : Bool
  int  : Nat
  frac : Nat
  deriving DecidableEq, Repr

/-- `unpack(w)` (R76): pointer values 27 to 31 read as 26; total. -/
def unpack (w : Word) : Logical :=
  let pc := min (pointerField w) 26
  { neg := signBit w, int := valueField w >>> pc, frac := valueField w % 2 ^ pc }

/-- Step 5 of `pack` (R75): shift and OR exact, then masked to 26 bits. -/
def packValue (iv fv : Nat) : Nat := ((iv <<< bitLength fv) ||| fv) % 2 ^ 26

/-- Step 6 of `pack` (R75): pointer, sign and value put at their places in a layout (R20). -/
def assemble (layout : Layout) (pointer : Nat) (neg : Bool) (value : Nat) : Word :=
  match layout with
  | .signMagnitude => BitVec.ofNat 32 ((pointer <<< 27) ||| ((if neg then 1 else 0) <<< 26) ||| value)

/-- `pack(neg, iv, fv)` (R75): the pointer field takes `p mod 32`, and the sign is cleared when the masked value is 0. -/
def pack (neg : Bool) (iv fv : Nat) : Word :=
  let p := bitLength fv
  let value := packValue iv fv
  assemble params.layout (p % 32) (neg && value != 0) value

/-- The scaled integer `(s, n, d)` of a word: `n` is the number with its decimal point removed, `d` says how many of its
digits were after the point (R101). -/
@[ext] structure Scaled where
  neg    : Bool
  mag    : Nat
  places : Nat
  deriving DecidableEq, Repr

/-- `scaled(w)` (R101). -/
def scaled (w : Word) : Scaled :=
  let u := unpack w
  let d := decDigits u.frac
  { neg := u.neg, mag := u.int * 10 ^ d + u.frac, places := d }

/-- A magnitude with its sign (R103). -/
def signed (neg : Bool) (m : Nat) : Int := if neg then -(m : Int) else m

/-- What the engine computes before it packs: the triple `(neg, ri, rf)` and the number of decimal places `rf` stands
for (R100, R103). -/
@[ext] structure Exact where
  neg    : Bool
  int    : Nat
  frac   : Nat
  places : Nat
  deriving DecidableEq, Repr

/-- A magnitude in units of `10^-places`, cut at the point: `ri = m div 10^D`, `rf = m mod 10^D` (R103, R120, R124). -/
def exactOf (neg : Bool) (m places : Nat) : Exact :=
  { neg := neg, int := m / 10 ^ places, frac := m % 10 ^ places, places := places }

/-- Step 3 of every arithmetic operation, the renormalization (R100). -/
def renormalize (x : Exact) : Word := pack x.neg x.int x.frac

/-- The string of a request: lanes 0 to `len - 1`; the lanes beyond are ignored (R56). -/
def requestString (len : StrLen) (str : Lanes) : List Byte := str.toList.take len.toNat

end Sys2Proof.Machine
end

