-- ==== Sys2Proof/Machine/State.lean ====
section
/-! DEFINITION. The storage of the block (spec R32) and what the host does at its ports (spec R60, R170). -/

namespace Sys2Proof.Machine

/-- The response register set, "the only storage of the block" (R32). No operation reads it (R31). -/
@[ext] structure RspRegs where
  valid  : Bool
  status : StatusCode
  word   : Word
  len    : StrLen
  str    : Lanes
  deriving DecidableEq, Repr

/-- The reset values of R171. -/
def RspRegs.reset : RspRegs :=
  { valid := false, status := 0, word := 0, len := 0, str := Lanes.zero }

/-- What one transaction yields: a result or a condition, never both (R156 asks for this sum type). -/
inductive Response where
  /-- A result word (ENCODE, ADD, SUB, MUL, DIV, NEG) or a bit length (BITLEN). -/
  | word (w : Word)
  /-- A result string (DECODE). -/
  | string (s : List Byte)
  /-- A condition and no result. -/
  | condition (c : Condition)
  deriving DecidableEq, Repr

/-- One thing the host does at the ports. DESIGN CHOICE (log 1, log 2): safe as a list of inputs; one pulse for a reset is
unsafe for claims about the time it is asserted. -/
inductive HostInput where
  /-- It presents one request, all fields at once (R60). -/
  | request (r : Request)
  /-- It asserts the reset input and releases it (R170). `cut` is the transaction in progress when the input is
  asserted, if there is one; `turnedAway` are requests presented while it is asserted. -/
  | reset (cut : Option Request) (turnedAway : List Request)
  deriving DecidableEq, Repr

/-- The machine: the response registers, and (the model's own field, DESIGN CHOICE, log 1) what the host does next, oldest first. -/
structure State where
  rsp    : RspRegs
  inputs : List HostInput
  deriving DecidableEq, Repr

/-- Right after reset: R171's values, and nothing presented yet. -/
def State.reset : State := { rsp := RspRegs.reset, inputs := [] }

/-- No constructor: no behaviour of the block stops it. Every condition of R150 is a response (R155) and the block
"stays fully usable" (R157), so nothing raises a fault. DEDUCED (log 9): unsafe if the
hardware can stop. -/
inductive Fault where
  deriving DecidableEq, Repr

/-- Why the model would have no meaning for an instruction. -/
inductive Refusal where
  /-- Raised only by an arm of `exec` whose instruction has no meaning yet, by its mnemonic. No arm raises it now. Safe:
  the model stops where the hardware goes on. -/
  | notModelled (mnemonic : String)
  deriving DecidableEq, Repr

end Sys2Proof.Machine
end

