-- ==== Sys2Proof/Machine/Flags.lean ====
section
/-! DEFINITION. The only status the block reports: `rsp.status` (spec R35, R150). -/

namespace Sys2Proof.Machine

/-- The status code of a condition (R150). -/
def conditionCode : Condition → StatusCode
  | .malformedNumber => 1
  | .divisionByZero => 2
  | .inexactQuotient => 3
  | .illegalRequest => 4

/-- The status a transaction writes: 0 unless it raises (R11, R150). -/
def statusOf : Response → StatusCode
  | .word _ => 0
  | .string _ => 0
  | .condition c => conditionCode c

end Sys2Proof.Machine
end

