-- ==== Sys2Proof/Machine/Ops.lean ====
section
/-! DEFINITION. The operations over the response registers (spec R51, R60, R156) and over the host's inputs (spec R170). -/

namespace Sys2Proof.Machine

/-- A string in its lanes: lane `i` carries character `i`, every lane at or beyond the length is 0x00 (R51, R56). -/
def lanesOf (s : List Byte) : Lanes := Vector.ofFn fun i => s.getD i.val 0

/-- Finish a transaction with a result word: the string fields are written with zero (R51). -/
def State.writeWord (w : Word) (s : State) : State :=
  { s with rsp := { valid := true, status := statusOf (.word w), word := w, len := 0, str := Lanes.zero } }

/-- Finish a transaction with a result string: the word is written with zero (R51, R82). -/
def State.writeString (str : List Byte) (s : State) : State :=
  { s with
    rsp :=
      { valid := true, status := statusOf (.string str), word := 0, len := BitVec.ofNat 6 str.length,
        str := lanesOf str } }

/-- `raise <Condition>` (R11, R155, R156): the one way a condition is delivered. Nothing is saved, no control goes
anywhere, no mode changes; the response holds the code and filler zeros. -/
def State.raise (c : Condition) (s : State) : State :=
  { s with
    rsp := { valid := true, status := statusOf (.condition c), word := 0, len := 0, str := Lanes.zero } }

/-- The end of every transaction: all response registers are written at once and `rsp.valid` is set (R60). -/
def State.respond (r : Response) (s : State) : State :=
  match r with
  | .word w => s.writeWord w
  | .string str => s.writeString str
  | .condition c => s.raise c

/-- A request that names no operation finishes with `raise IllegalRequest`, from `req.op` alone (R54, R158). -/
def refuseReserved (_op : OpCode) (s : State) : State := s.raise .illegalRequest

/-- One pulse of the reset input (R170): the transaction in progress is abandoned without a response, requests presented
meanwhile are not accepted, and at the release the registers hold R171's values. DESIGN CHOICE
(log 2): the pulse is one step. -/
def State.pulseReset (_cut : Option Request) (_turnedAway : List Request) (s : State) : State :=
  { s with rsp := RspRegs.reset }

/-- With nothing at the ports the block waits and keeps its last response. DESIGN CHOICE (log 3), unsafe. -/
def State.idle (s : State) : State := s

/-- The host presents this next, before what is already waiting. -/
def State.present (x : HostInput) (s : State) : State := { s with inputs := x :: s.inputs }

end Sys2Proof.Machine
end

