-- ==== Sys2Proof/Machine/AddSub.lean ====
section
/-! DEFINITION. The arithmetic engine, part 1: ADD and SUB (spec 42_addsub.md). -/

namespace Sys2Proof.Machine

/-- The signed magnitude of a word in units of `10^-places` (R102, R103), for `places` not below the word's own. -/
def alignedTotal (w : Word) (places : Nat) : Int :=
  let x := scaled w
  signed x.neg (x.mag * 10 ^ (places - x.places))

/-- The common number of fractional digits, `D = max(da, db)` (R102). -/
def commonPlaces (a b : Word) : Nat := max (scaled a).places (scaled b).places

/-- The block of R104 after the marked line: the signed total `t` in units of `10^-D`, decomposed (R103). -/
def exactOfTotal (t : Int) (places : Nat) : Exact := exactOf (decide (t < 0)) t.natAbs places

/-- `t = ta + tb` (R104). -/
def addExact (a b : Word) : Exact :=
  let d := commonPlaces a b
  exactOfTotal (alignedTotal a d + alignedTotal b d) d

/-- `t = ta - tb` (R105). -/
def subExact (a b : Word) : Exact :=
  let d := commonPlaces a b
  exactOfTotal (alignedTotal a d - alignedTotal b d) d

/-- The word of the sum (R104). -/
def addWord (a b : Word) : Word := renormalize (addExact a b)

/-- The word of the difference (R105). -/
def subWord (a b : Word) : Word := renormalize (subExact a b)

/-- ADD (R104). It raises nothing. -/
def execAdd (a b : Word) (s : State) : Host.Outcome State Fault Refusal :=
  .next (s.respond (.word (addWord a b)))

/-- SUB (R105). It raises nothing. -/
def execSub (a b : Word) (s : State) : Host.Outcome State Fault Refusal :=
  .next (s.respond (.word (subWord a b)))

end Sys2Proof.Machine
end

