-- ==== Sys2Proof/Machine/BitLength.lean ====
section
/-! DEFINITION. The bit-length counter: BITLEN (spec 40_bitlength.md). -/

namespace Sys2Proof.Machine

/-- The bit length of the 32-bit unsigned operand, zero-extended to 32 bits (R71). -/
def bitlenWord (a : BitlenOperand) : Word := BitVec.ofNat 32 (bitLength a.toNat)

/-- BITLEN (R71). It raises nothing. -/
def execBitlen (a : BitlenOperand) (s : State) : Host.Outcome State Fault Refusal :=
  .next (s.respond (.word (bitlenWord a)))

end Sys2Proof.Machine
end

