-- ==== Sys2Proof/Machine/Codec.lean ====
section
/-! DEFINITION. The codec: ENCODE and DECODE (spec 41_codec.md). -/

namespace Sys2Proof.Machine

/-- The byte is one of the ten digit characters (R10, R78). -/
def isDigit (c : Byte) : Bool :=
  decide (params.zeroChar.toNat ≤ c.toNat) && decide (c.toNat ≤ params.zeroChar.toNat + 9)

/-- The loop of `parse_unsigned` from the value `v` read so far; `none` is `raise MalformedNumber` (R78). -/
def parseDigits : Nat → List Byte → Option Nat
  | v, [] => some v
  | v, c :: cs =>
    if isDigit c then
      let v' := v * 10 + (c.toNat - params.zeroChar.toNat)
      if v' < 2 ^ params.parseBits then parseDigits v' cs else none
    else none

/-- `parse_unsigned(t)` (R78): an empty run, a byte that is no digit, or a value of 2^32 or more is malformed. -/
def parseUnsigned (t : List Byte) : Option Nat := if t = [] then none else parseDigits 0 t

/-- Step 1 of ENCODE: whether a leading `'-'` was there, and the rest (R79). -/
def stripSign (s : List Byte) : Bool × List Byte :=
  match s with
  | c :: rest => if c = params.minusChar then (true, rest) else (false, s)
  | [] => (false, [])

/-- Step 2 of ENCODE: the string split at its first `'.'`; without a dot the fraction is `"0"` (R79). -/
def splitAtDot (s : List Byte) : List Byte × List Byte :=
  if params.dotChar ∈ s then
    let j := s.idxOf params.dotChar
    (s.take j, s.drop (j + 1))
  else (s, [params.zeroChar])

/-- Steps 1 to 6 of ENCODE on a string; `none` is `raise MalformedNumber` (R79, R80). -/
def encodeString (s : List Byte) : Option Word :=
  let (neg, t) := stripSign s
  let (intStr, fracStr) := splitAtDot t
  match parseUnsigned intStr, parseUnsigned fracStr with
  | some iv, some fv => some (pack neg iv fv)
  | _, _ => none

/-- The response of ENCODE: a length that names no string is refused before any look at the lanes (R79, R158). -/
def encodeResponse (len : StrLen) (str : Lanes) : Response :=
  if params.strMax < len.toNat then .condition .illegalRequest
  else
    match encodeString (requestString len str) with
    | some w => .word w
    | none => .condition .malformedNumber

/-- ENCODE (R79). -/
def execEncode (len : StrLen) (str : Lanes) (s : State) : Host.Outcome State Fault Refusal :=
  .next (s.respond (encodeResponse len str))

/-- The string of a word: `"{sign}{int}.{frac}"`, the sign bit printed as it is found (R82, R83, R90). -/
def decodeString (w : Word) : List Byte :=
  let u := unpack w
  (if u.neg then [params.minusChar] else params.posSign) ++ decStr u.int ++ [params.dotChar] ++ decStr u.frac

/-- DECODE (R82). It raises nothing. -/
def execDecode (a : Word) (s : State) : Host.Outcome State Fault Refusal :=
  .next (s.respond (.string (decodeString a)))

end Sys2Proof.Machine
end

