-- ==== Sys2Proof/Machine/MulDiv.lean ====
section
/-! DEFINITION. The arithmetic engine, part 2: MUL and DIV (spec 43_muldiv.md). -/

namespace Sys2Proof.Machine

/-- The sign of a product or quotient: the XOR of the sign bits as they stand (R121, R129). -/
def crossSign (a b : Word) : Bool := xor (scaled a).neg (scaled b).neg

/-- The exact product: `m = na * nb` at `D = da + db` places (R120, R122). -/
def mulExact (a b : Word) : Exact :=
  let x := scaled a
  let y := scaled b
  exactOf (crossSign a b) (x.mag * y.mag) (x.places + y.places)

/-- The word of the product (R120). -/
def mulWord (a b : Word) : Word := renormalize (mulExact a b)

/-- MUL (R120). It raises nothing. -/
def execMul (a b : Word) (s : State) : Host.Outcome State Fault Refusal :=
  .next (s.respond (.word (mulWord a b)))

/-- How many fractional digits a quotient gets whose denominator in lowest terms is `2^v2 * 5^v5` (R126). -/
def quotientPlaces (rule : QuotientDigits) (v2 v5 : Nat) : Nat :=
  match rule with
  | .fewest => max v2 v5

/-- The numerator of `a / b` before reduction, `na * 10^db` (R124). -/
def quotientNum (a b : Word) : Nat := (scaled a).mag * 10 ^ (scaled b).places

/-- The denominator of `a / b` before reduction, `nb * 10^da` (R124). -/
def quotientDen (a b : Word) : Nat := (scaled b).mag * 10 ^ (scaled a).places

/-- The exact quotient of two words, or the condition that stands in its place (R124): a zero divisor first (R125), then a
quotient with no finite expansion (R127). -/
def divExact (a b : Word) : Except Condition Exact :=
  if (scaled b).mag = 0 then .error .divisionByZero
  else
    let g := Nat.gcd (quotientNum a b) (quotientDen a b)
    let num := quotientNum a b / g
    let den := quotientDen a b / g
    let v2 := exponentOf 2 den
    let v5 := exponentOf 5 den
    if den ≠ 2 ^ v2 * 5 ^ v5 then .error params.divInexact
    else
      let k := quotientPlaces params.divDigits v2 v5
      .ok (exactOf (crossSign a b) (num * 10 ^ k / den) k)

/-- The response of DIV (R124). -/
def divResponse (a b : Word) : Response :=
  match divExact a b with
  | .ok x => .word (renormalize x)
  | .error c => .condition c

/-- DIV (R124). -/
def execDiv (a b : Word) (s : State) : Host.Outcome State Fault Refusal :=
  .next (s.respond (divResponse a b))

end Sys2Proof.Machine
end

