-- ==== Sys2Proof/Machine/Negate.lean ====
section
/-! DEFINITION. Unary negation: NEG (spec 44_negate.md). -/

namespace Sys2Proof.Machine

/-- The word with bit 26 flipped, or the word itself when its value field is 0; nothing is renormalized (R140). -/
def negWord (w : Word) : Word := if valueField w = 0 then w else w ^^^ 0x04000000

/-- NEG (R140). It raises nothing. -/
def execNeg (a : Word) (s : State) : Host.Outcome State Fault Refusal :=
  .next (s.respond (.word (negWord a)))

end Sys2Proof.Machine
end

