-- ==== Sys2Proof/Machine/Dispatch.lean ====
section
/-! DEFINITION. One arm per operation (spec R52). -/

namespace Sys2Proof.Machine

/-- The response of one operation, written into the response registers. -/
def exec (i : Instr) (s : State) : Host.Outcome State Fault Refusal :=
  match i with
  | .bitlen a => Sys2Proof.Machine.execBitlen a s
  | .encode len str => Sys2Proof.Machine.execEncode len str s
  | .decode a => Sys2Proof.Machine.execDecode a s
  | .add a b => Sys2Proof.Machine.execAdd a b s
  | .sub a b => Sys2Proof.Machine.execSub a b s
  | .mul a b => Sys2Proof.Machine.execMul a b s
  | .div a b => Sys2Proof.Machine.execDiv a b s
  | .neg a => Sys2Proof.Machine.execNeg a s

end Sys2Proof.Machine
end

