-- ==== Sys2Proof/Machine/Step.lean ====
section
/-! DEFINITION. One step: the block serves the oldest thing the host did at its ports (spec R45, R60, R170, R175). -/

namespace Sys2Proof.Machine

/-- One transaction, an atomic step (R175; DEDUCED, log 8): the operation `req.op` names, or IllegalRequest when it names none (R54). -/
def transact (r : Request) (s : State) : Host.Outcome State Fault Refusal :=
  match decode r with
  | .instr i => exec i s
  | .reservedOp op => .next (refuseReserved op s)

/-- Requests are served one at a time in the order they were presented (R45); a reset pulse stands between requests. -/
def step (s : State) : Host.Outcome State Fault Refusal :=
  match s.inputs with
  | [] => .next s.idle
  | .request r :: rest => transact r { s with inputs := rest }
  | .reset cut turnedAway :: rest => .next (State.pulseReset cut turnedAway { s with inputs := rest })

/-- The host presents next the request that a word of spec/opcode_table.json stands for (log 4). -/
def State.withFetchWord (s : State) (nbits w : Nat) : State := s.present (.request (tableRequest nbits w))

end Sys2Proof.Machine
end

