-- ==== Sys2Proof/WellFormed.lean ====
section
/-! DEFINITION. Well-formed instructions (spec R56) and well-formed packed words (spec R26).

The block checks neither for its operands: every 32-bit word is accepted (R27), and an ENCODE that names no string is
answered with IllegalRequest by its own meaning (R79; DEDUCED, log 7). -/

namespace Sys2Proof

/-- The length names a string: 0 to `STR_MAX` bytes (R56; 33 to 63 name none). -/
def namesString (len : StrLen) : Bool := decide (len.toNat ≤ Machine.params.strMax)

/-- An instruction whose operands are all ones the spec gives a meaning: only ENCODE has an operand that can name
nothing (R27, R56). -/
def wellFormed : Instr → Bool
  | .bitlen _ => true
  | .encode len _ => namesString len
  | .decode _ => true
  | .add _ _ => true
  | .sub _ _ => true
  | .mul _ _ => true
  | .div _ _ => true
  | .neg _ => true

/-- `WellFormed(w)` of R26, check by check: (1) `p <= 26`; (2) `p = 0` or bit `p - 1` of the value is 1; (3) a zero
value has sign 0. -/
def wordWellFormed (w : Word) : Bool :=
  let p := (w.extractLsb' 27 5).toNat
  let s := w.getLsbD 26
  let v := w.extractLsb' 0 26
  decide (p ≤ 26) && (p == 0 || v.getLsbD (p - 1)) && (v != 0 || !s)

end Sys2Proof
end

