-- ==== Sys2Proof/Safety.lean ====
section
/-! DEFINITION. The notions of the spec that claims are stated in: the number a word denotes (R29), the 26-bit budget
(R87), the accepted strings (R77), the response registers a transaction leaves (R51), and what no step may break.

The block has no unsafe run in the sense of a stop: every step answers a next state. What can go wrong is a wrong number
with status 0 (the value hazards of R173), and `wordVal`, `Exact.val` and `fits` are what says when that is. -/

namespace Sys2Proof.Machine

/-! ### Numbers -/

/-- `-1` for a negative sign, `1` otherwise: `(-1)^s` (R29). -/
def signFactor (neg : Bool) : ℚ := if neg then -1 else 1

/-- `Val(w)` (R29): the number a word denotes. -/
def wordVal (w : Word) : ℚ :=
  let u := unpack w
  signFactor u.neg * (u.int + u.frac / 10 ^ decDigits u.frac)

/-- The number an engine triple stands for before it is packed (R103, R120, R124). -/
def Exact.val (x : Exact) : ℚ := signFactor x.neg * (x.int + x.frac / 10 ^ x.places)

/-- `Fits(iv, fv)`: the 26-bit budget (R87). -/
abbrev fits (iv fv : Nat) : Prop := bitLength iv + bitLength fv ≤ 26

/-- The fraction of an engine triple is zero or has no leading zero at its digit count (condition (ii) of R110). -/
abbrev Exact.fullFraction (x : Exact) : Prop := x.frac = 0 ∨ decDigits x.frac = x.places

/-! ### Strings -/

/-- A run of one or more ASCII decimal digits (R77). -/
abbrev digitRun (t : List Byte) : Prop := t ≠ [] ∧ ∀ c ∈ t, 0x30 ≤ c.toNat ∧ c.toNat ≤ 0x39

/-- A digit run read as a decimal numeral (R77). -/
def numeral (t : List Byte) : Nat := t.foldl (fun v c => v * 10 + (c.toNat - 0x30)) 0

/-- A string of the grammar `[-]?<digits>[.<digits>]` put together from its parts (R77). -/
def spelled (neg : Bool) (int : List Byte) (frac : Option (List Byte)) : List Byte :=
  (if neg then [0x2D] else []) ++ int ++
    match frac with
    | none => []
    | some f => 0x2E :: f

/-- A segment the digit parser takes: a digit run whose numeral is below 2^32 (R77, R78). -/
abbrev parsable (t : List Byte) : Prop := digitRun t ∧ numeral t < 2 ^ 32

/-- The parts of an accepted string (R77): a missing fractional part is allowed. -/
abbrev acceptedParts (int : List Byte) (frac : Option (List Byte)) : Prop :=
  parsable int ∧ ∀ f ∈ frac, parsable f

/-- The strings ENCODE accepts (R77). -/
def accepted (s : List Byte) : Prop :=
  ∃ neg int frac, s = spelled neg int frac ∧ acceptedParts int frac

/-- The fraction a missing part stands for is 0 (R77). -/
def fracNumeral : Option (List Byte) → Nat
  | none => 0
  | some f => numeral f

/-- The canonical spelling of a logical form (R86): sign, integer and fraction digits without leading zeros. -/
def canonicalSpelling (neg : Bool) (iv fv : Nat) : List Byte := spelled neg (decStr iv) (some (decStr fv))

/-- The strings that survive the round trip (R86). -/
def roundTrips (s : List Byte) : Prop :=
  ∃ neg iv fv, s = canonicalSpelling neg iv fv ∧ fits iv fv ∧ ¬(neg = true ∧ iv = 0 ∧ fv = 0)

/-! ### Response registers -/

/-- After a transaction with a result word (R51). -/
def wordRegs (w : Word) : RspRegs := { valid := true, status := 0, word := w, len := 0, str := Lanes.zero }

/-- After a transaction with a result string (R51). -/
def stringRegs (s : List Byte) : RspRegs :=
  { valid := true, status := 0, word := 0, len := BitVec.ofNat 6 s.length, str := lanesOf s }

/-- After a transaction that raised the condition of this code (R156). -/
def conditionRegs (code : StatusCode) : RspRegs :=
  { valid := true, status := code, word := 0, len := 0, str := Lanes.zero }

/-- The response registers an operation leaves when it runs right after reset. That it leaves the same registers from every
state is a statement of its own (`Obligations.ExecAnswersFromOperandsAlone`), so laws are stated with this. -/
def answer (i : Instr) : RspRegs :=
  match exec i State.reset with
  | .next t => t.rsp
  | .fault _ => RspRegs.reset
  | .refused _ => RspRegs.reset

/-- The instruction that carries a string of at most 32 bytes to ENCODE (R56). -/
def encodeInstr (s : List Byte) : Instr := .encode (BitVec.ofNat 6 s.length) (lanesOf s)

/-- What the response registers always satisfy: codes 5 to 7 never appear (R150); a condition leaves only filler (R156);
lanes at or beyond the length are 0x00 (R51); a string has 3 to 11 bytes and no word beside it (R82, R84); until the
first transaction everything is at its reset value (R171). -/
abbrev RspRegs.Consistent (r : RspRegs) : Prop :=
  r.status.toNat ≤ 4 ∧
  (r.status ≠ 0 → r.word = 0 ∧ r.len = 0) ∧
  (∀ i : Fin 32, r.len.toNat ≤ i.val → r.str[i] = 0) ∧
  (r.len ≠ 0 → r.word = 0 ∧ 3 ≤ r.len.toNat ∧ r.len.toNat ≤ 11) ∧
  (r.valid = false → r = RspRegs.reset)

/-- The machine's invariant. -/
abbrev State.Consistent (s : State) : Prop := s.rsp.Consistent

/-! ### Words the block makes -/

/-- A negative zero: sign 1 and value 0, with any pointer (R25, U6). -/
abbrev negativeZero (w : Word) : Prop := signBit w = true ∧ valueField w = 0

/-- The words a host can obtain from strings: made by ENCODE, or by an operation on words so obtained (R142). -/
inductive Produced : Word → Prop where
  | byEncode {len str w} : encodeResponse len str = .word w → Produced w
  | byAdd {a b} : Produced a → Produced b → Produced (addWord a b)
  | bySub {a b} : Produced a → Produced b → Produced (subWord a b)
  | byMul {a b} : Produced a → Produced b → Produced (mulWord a b)
  | byDiv {a b w} : Produced a → Produced b → divResponse a b = .word w → Produced w
  | byNeg {a} : Produced a → Produced (negWord a)

/-- A quotient of the two words' magnitudes that `m` units of `10^-k` hold exactly (R126, R128). -/
abbrev quotientIs (a b : Word) (m k : Nat) : Prop := |wordVal a| / |wordVal b| = (m : ℚ) / 10 ^ k

/-- The exact quotient has a finite decimal expansion (R127, R128). -/
def terminates (a b : Word) : Prop := ∃ m k, quotientIs a b m k

end Sys2Proof.Machine
end

