-- ==== Sys2Proof/Certificates/Slice0/Obligations.lean ====
section
/-! DEFINITION. The statements of this model. Each docstring names the rule of spec/ it formalises. `answer i` is the response
register set operation `i` leaves (`Sys2Proof/Safety.lean`). -/

open Sys2Proof Sys2Proof.Machine

/-! ### The machine as a whole -/

/-- R171: the reset values of all five registers; after the first transaction `rsp.valid` is 1 until the next reset. -/
def Obligations.ResetClearsResponseRegisters : Prop :=
  State.reset.rsp.valid = false ∧ State.reset.rsp.status = 0 ∧ State.reset.rsp.word = 0x00000000 ∧
  State.reset.rsp.len = 0 ∧ (∀ i : Fin 32, State.reset.rsp.str[i] = 0x00) ∧
  (∀ r s t, transact r s = .next t → t.rsp.valid = true) ∧
  (∀ s t, step s = .next t → s.rsp.valid = true → t.rsp.valid = false →
    ∃ cut away rest, s.inputs = .reset cut away :: rest)

/-- The reset input as the model shows it, one pulse from assertion to release (log 2): whatever transaction was in
progress and whatever requests were presented meanwhile, no response is produced, the registers hold the reset values,
and the block is ready for the next request. -/
def Obligations.ResetPulseAbandonsTransaction : Prop :=
  ∀ (s : State) (cut : Option Request) (away : List Request) (rest : List HostInput),
    s.inputs = .reset cut away :: rest →
    step s = .next { rsp := { valid := false, status := 0, word := 0, len := 0, str := Vector.replicate 32 0 }, inputs := rest } ∧
    ∀ r rest' t, rest = .request r :: rest' → step s = .next t →
      step t = transact r { State.reset with inputs := rest' }

/-- The invariant holds right after reset. -/
def Obligations.ResetRegistersAreConsistent : Prop := State.reset.Consistent

/-- Every step keeps the invariant `State.Consistent`: codes 5 to 7 never appear (R150), a condition leaves only
filler (R156), lanes at or beyond the length are 0x00 (R51), a string has 3 to 11 bytes and no word beside it (R84),
before the first transaction everything is at its reset value (R171). -/
def Obligations.StepKeepsRegistersConsistent : Prop :=
  ∀ s t : State, s.Consistent → step s = .next t → t.Consistent

/-- "every transaction ends" (R175), on the model's input list (log 1): serving everything the host has put at the
ports, one step an item, ends with nothing left, from every state; the block never stops on the way. -/
def Obligations.EveryPresentedInputIsServed : Prop :=
  ∀ s : State, ∃ t : State, Sys2Proof.core.run s.inputs.length s = .next t ∧ t.inputs = []

/-- A step whose next input is a request runs the decoded instruction on the state without that request; a code that
names no operation is answered with status 4. -/
def Obligations.StepRunsDecodedInstruction : Prop :=
  ∀ (s : State) (r : Request) (rest : List HostInput), s.inputs = .request r :: rest →
    (∀ i, decode r = .instr i → step s = exec i { s with inputs := rest }) ∧
    (∀ op, decode r = .reservedOp op → step s = .next { rsp := conditionRegs 4, inputs := rest })

/-- With nothing at the ports a step changes nothing. The model's choice (log 3); the spec gives no step without a
request. -/
def Obligations.IdleBlockKeepsItsState : Prop := ∀ s : State, s.inputs = [] → step s = .next s

/-- R31: a response is a function of its request alone, whatever the registers held before. -/
def Obligations.ResponseIsFunctionOfRequest : Prop :=
  ∃ f : Request → RspRegs, ∀ (r : Request) (s : State), transact r s = .next { s with rsp := f r }

/-- Every one of the eight operations answers a next state from every state: its answer written over the response
registers, and nothing else changed. -/
def Obligations.ExecAnswersFromOperandsAlone : Prop :=
  ∀ (i : Instr) (s : State), exec i s = .next { s with rsp := answer i }

/-- R45 on the model's input list (log 1): a run over any requests ends with the response to the last one, the
response it would have got alone. -/
def Obligations.RunLeavesResponseToLatestRequest : Prop :=
  ∃ f : Request → RspRegs, (∀ r s, transact r s = .next { s with rsp := f r }) ∧
    ∀ (earlier : List Request) (r : Request) (rest : List HostInput) (s : State),
      s.inputs = earlier.map .request ++ .request r :: rest →
      Sys2Proof.core.run (earlier.length + 1) s = .next { rsp := f r, inputs := rest }

/-! ### Requests -/

/-- R53: fields an operation does not read do not matter. -/
def Obligations.UnreadFieldsAreIgnored : Prop :=
  ∀ (q r : Request) (s : State), q.op = r.op →
    ((q.op = 0x1 ∨ q.op = 0x3 ∨ q.op = 0x8) → q.a = r.a → transact q s = transact r s) ∧
    ((q.op = 0x4 ∨ q.op = 0x5 ∨ q.op = 0x6 ∨ q.op = 0x7) → q.a = r.a → q.b = r.b → transact q s = transact r s) ∧
    (q.op = 0x2 → q.len = r.len → (∀ i : Fin 32, i.val < q.len.toNat → q.str[i] = r.str[i]) →
      transact q s = transact r s) ∧
    ((q.op = 0x0 ∨ 9 ≤ q.op.toNat) → transact q s = transact r s)

/-- Decode and encode agree in both directions, with every operand at every value: the encoding of an instruction
decodes to it; a request decodes to an instruction exactly when the fields its operation reads are that instruction's;
the other requests are exactly the reserved codes. -/
def Obligations.DecodeAndEncodeAgree : Prop :=
  (∀ i : Instr, decode (encode i) = .instr i) ∧
  (∀ (r : Request) (i : Instr), decode r = .instr i ↔ readFields r = encode i) ∧
  (∀ (r : Request) (op : OpCode), decode r = .reservedOp op ↔ r.op = op ∧ (op = 0x0 ∨ 9 ≤ op.toNat))

/-- Requests written out from the operation map decode to the operations they stand for. -/
def Obligations.WrittenRequestsDecode : Prop :=
  (∀ a b len str, decode ⟨0b0001, a, b, len, str⟩ = .instr (.bitlen a)) ∧
  (∀ a b len str, decode ⟨0b0010, a, b, len, str⟩ = .instr (.encode len str)) ∧
  (∀ a b len str, decode ⟨0b0011, a, b, len, str⟩ = .instr (.decode a)) ∧
  (∀ a b len str, decode ⟨0b0100, a, b, len, str⟩ = .instr (.add a b)) ∧
  (∀ a b len str, decode ⟨0b0101, a, b, len, str⟩ = .instr (.sub a b)) ∧
  (∀ a b len str, decode ⟨0b0110, a, b, len, str⟩ = .instr (.mul a b)) ∧
  (∀ a b len str, decode ⟨0b0111, a, b, len, str⟩ = .instr (.div a b)) ∧
  (∀ a b len str, decode ⟨0b1000, a, b, len, str⟩ = .instr (.neg a))

/-- R54: codes 0x0 and 0x9 to 0xF select no operation and finish with status 4, word 0 and an empty string; every
other code selects one; and no word is a reserved pattern of the packed format. -/
def Obligations.ReservedCodesRaiseIllegalRequest : Prop :=
  (∀ (r : Request) (s : State), (r.op = 0x0 ∨ 9 ≤ r.op.toNat) →
    transact r s = .next { s with rsp := { valid := true, status := 4, word := 0, len := 0, str := Vector.replicate 32 0 } }) ∧
  (∀ r : Request, 1 ≤ r.op.toNat → r.op.toNat ≤ 8 → ∃ i, decode r = .instr i) ∧
  (∀ w : Word, (answer (.decode w)).status = 0)

/-- R51: every transaction writes every response field; those its operation does not produce are 0; lanes at or beyond
the length are 0x00; on a condition everything but the code is 0. -/
def Obligations.EveryResponseFieldIsWritten : Prop :=
  ∀ (r : Request) (s t : State), transact r s = .next t →
    t.inputs = s.inputs ∧ t.rsp.valid = true ∧ t.rsp.status.toNat ≤ 4 ∧
    (∀ s' : State, transact r s' = .next { s' with rsp := t.rsp }) ∧
    (∀ k : Fin 32, t.rsp.len.toNat ≤ k.val → t.rsp.str[k] = 0x00) ∧
    (t.rsp.status ≠ 0 → t.rsp.word = 0 ∧ t.rsp.len = 0 ∧ ∀ k : Fin 32, t.rsp.str[k] = 0x00) ∧
    (r.op = 0x3 → t.rsp.word = 0) ∧
    (r.op ≠ 0x3 → t.rsp.len = 0 ∧ ∀ k : Fin 32, t.rsp.str[k] = 0x00) ∧
    (r.op = 0x1 → t.rsp.word.toNat ≤ 32)

/-! ### Conditions -/

/-- R150, R152, R154, R158: each status of a transaction has exactly its cause; 5 to 7 are never produced. -/
def Obligations.StatusTellsTheCause : Prop :=
  ∀ (r : Request) (s : State), ∃ t, transact r s = .next t ∧
    (t.rsp.status = 1 ↔ r.op = 0x2 ∧ r.len.toNat ≤ 32 ∧ ¬ accepted (requestString r.len r.str)) ∧
    (t.rsp.status = 2 ↔ r.op = 0x7 ∧ valueField r.b = 0) ∧
    (t.rsp.status = 3 ↔ r.op = 0x7 ∧ valueField r.b ≠ 0 ∧ ¬ terminates r.a r.b) ∧
    (t.rsp.status = 4 ↔ (r.op = 0x0 ∨ 9 ≤ r.op.toNat) ∨ (r.op = 0x2 ∧ 32 < r.len.toNat)) ∧
    (t.rsp.status ≠ 0 → t.rsp = conditionRegs t.rsp.status) ∧ t.rsp.status.toNat ≤ 4

/-- R156: what a response holds when a condition is raised: the code, `rsp.valid` 1, and filler zeros. -/
def Obligations.ConditionLeavesOnlyFiller : Prop :=
  ∀ (c : Condition) (s : State),
    s.raise c =
      { s with
        rsp :=
          { valid := true
            status := match c with
              | .malformedNumber => 1
              | .divisionByZero => 2
              | .inexactQuotient => 3
              | .illegalRequest => 4
            word := 0x00000000, len := 0, str := Vector.replicate 32 0x00 } } ∧
    ∀ r t, transact r s = .next t → t.rsp.status ≠ 0 →
      t.rsp = { valid := true, status := t.rsp.status, word := 0x00000000, len := 0, str := Vector.replicate 32 0x00 }

/-- R157: a transaction changes nothing but the response registers, and the request after one that raised a condition
is executed as if that one had never been sent. -/
def Obligations.FailedRequestLeavesNoTrace : Prop :=
  ∀ (r next : Request) (s t : State), transact r s = .next t →
    t.inputs = s.inputs ∧ transact next t = transact next s

/-! ### BITLEN -/

/-- R71: BITLEN answers the number of bits of its operand, with every corner case of the rule. -/
def Obligations.BitlenCountsBits : Prop :=
  ∀ (a : Word) (s : State), ∃ w : Word, exec (.bitlen a) s = .next { s with rsp := wordRegs w } ∧
    w.toNat = bitLength a.toNat ∧ (a = 0 → w = 0) ∧
    (a ≠ 0 → 1 ≤ w.toNat ∧ 2 ^ (w.toNat - 1) ≤ a.toNat ∧ a.toNat < 2 ^ w.toNat) ∧ w.toNat ≤ 32 ∧
    ∀ r : Request, r.op = 0x1 → r.a = a → decode r = .instr (.bitlen a)

/-- R70: the bit length is the position of the highest set bit plus one, and obeys the pseudocode's loop. -/
def Obligations.BitLengthIsHighestSetBit : Prop :=
  bitLength 0 = 0 ∧
  ∀ n : Nat, 0 < n →
    bitLength n = bitLength (n >>> 1) + 1 ∧ n.testBit (bitLength n - 1) = true ∧
    ∀ i, bitLength n ≤ i → n.testBit i = false

/-- R72 (by the spec's own inference): the properties of the bit length that `pack` and `unpack` rest on. -/
def Obligations.BitLengthBoundsItsArgument : Prop :=
  (∀ n k : Nat, 0 < n → (bitLength n = k ↔ 2 ^ (k - 1) ≤ n ∧ n < 2 ^ k)) ∧
  (∀ m n : Nat, m ≤ n → bitLength m ≤ bitLength n) ∧
  (∀ n k : Nat, n < 2 ^ k → n = n % 2 ^ k) ∧
  (∀ x n : Nat, ((x <<< bitLength n) ||| n) % 2 ^ bitLength n = n) ∧
  (∀ n : Nat, bitLength n ≤ 26 ↔ n ≤ 67108863)

/-! ### The packed word -/

/-- R75: the fields of `pack`: the pointer cut to 5 bits, shift and OR masked once to 26 bits, no negative zero. -/
def Obligations.PackAssemblesFields : Prop :=
  ∀ (neg : Bool) (iv fv : Nat),
    pointerField (pack neg iv fv) = bitLength fv % 32 ∧
    valueField (pack neg iv fv) = ((iv <<< bitLength fv) ||| fv) % 2 ^ 26 ∧
    signBit (pack neg iv fv) = (neg && decide (((iv <<< bitLength fv) ||| fv) % 2 ^ 26 ≠ 0))

/-- R76: `unpack` splits the value field at the clamped pointer, bit for bit; the parts always fit the budget. -/
def Obligations.UnpackSplitsValueField : Prop :=
  ∀ w : Word,
    let u := unpack w
    let pc := min (pointerField w) 26
    u.neg = w.getLsbD 26 ∧
    u.int = valueField w / 2 ^ pc ∧ u.frac = valueField w % 2 ^ pc ∧
    (∀ i, u.int.testBit i = (decide (i + pc < 26) && w.getLsbD (i + pc))) ∧
    (∀ i, u.frac.testBit i = (decide (i < pc) && w.getLsbD i)) ∧
    u.int < 2 ^ (26 - pc) ∧ u.frac < 2 ^ pc ∧ bitLength u.int + bitLength u.frac ≤ 26 ∧
    (pc = 0 → u.int = valueField w ∧ u.frac = 0) ∧ (pc = 26 → u.int = 0 ∧ u.frac = valueField w)

/-- R87 (by the spec's own inference): within the budget `pack` loses nothing; which numbers fit. -/
def Obligations.PackIsLosslessWithinBudget : Prop :=
  (∀ (neg : Bool) (iv fv : Nat), fits iv fv →
    unpack (pack neg iv fv) = { neg := neg && !decide (iv = 0 ∧ fv = 0), int := iv, frac := fv } ∧
    pointerField (pack neg iv fv) = bitLength fv ∧ bitLength fv ≤ 26 ∧ wordWellFormed (pack neg iv fv) = true) ∧
  fits 67108863 0 ∧ fits 0 67108863 ∧ fits 33554431 1 ∧ fits 8191 8191 ∧
  ¬ fits 67108864 0 ∧ ¬ fits 33554432 1 ∧ ¬ fits 0 99999999 ∧
  (∀ fv, fv < 10 ^ 7 → bitLength fv ≤ 24) ∧
  (∀ fv, 10 ^ 7 ≤ fv → fv < 10 ^ 8 → (fits 0 fv ↔ fv ≤ 67108863))

/-- R26 (by the spec's own inference): a word is well-formed exactly when `pack(unpack(w)) = w`. -/
def Obligations.WellFormedIffRepackedUnchanged : Prop :=
  (∀ w : Word, wordWellFormed w = true ↔
    pointerField w ≤ 26 ∧ (pointerField w = 0 ∨ (valueField w).testBit (pointerField w - 1) = true) ∧
      (valueField w = 0 → signBit w = false)) ∧
  (∀ w : Word, wordWellFormed w = true ↔ pack (unpack w).neg (unpack w).int (unpack w).frac = w) ∧
  wordWellFormed 0x380001FD = true ∧ wordWellFormed 0x18000009 = false ∧
  wordWellFormed 0x04000000 = false ∧ wordWellFormed 0xD8000000 = false

/-- R24: the invariants of a word packed from a triple that fits; outside the budget only (e) always holds. -/
def Obligations.PackedWordInvariants : Prop :=
  (∀ (neg : Bool) (iv fv : Nat), fits iv fv →
    pointerField (pack neg iv fv) ≤ 26 ∧
    (fv = 0 → pointerField (pack neg iv fv) = 0 ∧ decStr (unpack (pack neg iv fv)).frac = [0x30]) ∧
    valueField (pack neg iv fv) % 2 ^ pointerField (pack neg iv fv) = fv ∧
    pointerField (pack neg iv fv) = bitLength fv ∧
    (0 < pointerField (pack neg iv fv) →
      (valueField (pack neg iv fv)).testBit (pointerField (pack neg iv fv) - 1) = true)) ∧
  (∀ (neg : Bool) (iv fv : Nat), ¬ negativeZero (pack neg iv fv)) ∧
  (∃ (neg : Bool) (iv fv : Nat), ¬ fits iv fv ∧ 26 < pointerField (pack neg iv fv) ∧
    valueField (pack neg iv fv) % 2 ^ pointerField (pack neg iv fv) ≠ fv ∧
    (valueField (pack neg iv fv)).testBit (pointerField (pack neg iv fv) - 1) = false)

/-- R89 (by the spec's own inference): outside the budget the word is cut, silently: which bits are left in each range
of the pointer. -/
def Obligations.OutsideBudgetHighBitsAreDropped : Prop :=
  (∀ (neg : Bool) (iv fv : Nat), ¬ fits iv fv →
    let w := pack neg iv fv
    let p := bitLength fv
    (p ≤ 26 → pointerField w = p ∧ (unpack w).frac = fv ∧ (unpack w).int = iv % 2 ^ (26 - p)) ∧
    (27 ≤ p → p ≤ 31 → pointerField w = p ∧ valueField w = fv % 2 ^ 26 ∧ wordWellFormed w = false ∧
      (unpack w).int = 0 ∧ (unpack w).frac = fv % 2 ^ 26) ∧
    (32 ≤ p → pointerField w = p % 32 ∧ valueField w = fv % 2 ^ 26)) ∧
  answer (encodeInstr [0x36, 0x37, 0x31, 0x30, 0x38, 0x38, 0x36, 0x34, 0x2E, 0x30]) = wordRegs 0x00000000 ∧
  answer (encodeInstr [0x33, 0x33, 0x35, 0x35, 0x34, 0x34, 0x33, 0x32, 0x2E, 0x31]) = wordRegs 0x08000001 ∧
  answer (encodeInstr [0x30, 0x2E, 0x36, 0x37, 0x31, 0x30, 0x38, 0x38, 0x36, 0x34]) = wordRegs 0xD8000000 ∧
  answer (encodeInstr [0x30, 0x2E, 0x34, 0x32, 0x39, 0x34, 0x39, 0x36, 0x37, 0x32, 0x39, 0x35]) = wordRegs 0x03FFFFFF ∧
  answer (.add 0x03FFFFFF 0x00000001) = wordRegs 0x00000000 ∧
  answer (.decode 0x08000001) = stringRegs [0x30, 0x2E, 0x31] ∧
  answer (.decode 0xD8000000) = stringRegs [0x30, 0x2E, 0x30] ∧
  answer (.decode 0x03FFFFFF) = stringRegs [0x36, 0x37, 0x31, 0x30, 0x38, 0x38, 0x36, 0x33, 0x2E, 0x30]

/-- R106: no word ENCODE or the engine produces is a negative zero: a zero total is not negative, `pack` clears the
sign of a zero product or quotient, and an operand whose value field is 0 counts as zero whatever its sign. -/
def Obligations.ResultsAreNeverNegativeZero : Prop :=
  (∀ len str, ¬ negativeZero (answer (.encode len str)).word) ∧
  (∀ a b, ¬ negativeZero (answer (.add a b)).word ∧ ¬ negativeZero (answer (.sub a b)).word ∧
    ¬ negativeZero (answer (.mul a b)).word ∧ ¬ negativeZero (answer (.div a b)).word) ∧
  (∀ w : Word, valueField w = 0 → (scaled w).mag = 0 ∧ ∀ d, alignedTotal w d = 0) ∧
  (∀ d, (exactOfTotal 0 d).neg = false) ∧
  (mulExact 0x1C00000D 0x00000000).neg = true ∧ divExact 0x00000000 0x04000005 = .ok ⟨true, 0, 0, 0⟩

/-- R30 (by the spec's own inference): equality is of bits; equal numbers can be unequal words, and among well-formed
words equality of words is equality of decoded strings. -/
def Obligations.WordEqualityIsFinerThanValue : Prop :=
  (∀ a b : Word, wordWellFormed a = true → wordWellFormed b = true →
    (a = b ↔ answer (.decode a) = answer (.decode b))) ∧
  (∀ a b : Word, a = b ↔ ∀ i, a.getLsbD i = b.getLsbD i) ∧
  wordVal 0x10000003 = wordVal 0x2800001E ∧ (0x10000003 : Word) ≠ 0x2800001E ∧
  answer (.decode 0x08000001) = stringRegs [0x30, 0x2E, 0x31] ∧ answer (.decode 0x10000001) = stringRegs [0x30, 0x2E, 0x31]

/-! ### Strings and the codec -/

/-- R78: the digit parser takes exactly the non-empty digit runs whose numeral is below 2^32, and returns the numeral. -/
def Obligations.ParserReadsTheNumeral : Prop :=
  (∀ (t : List Byte) (v : Nat), parseUnsigned t = some v ↔ digitRun t ∧ numeral t = v ∧ v < 2 ^ 32) ∧
  (∀ (t : List Byte), parseUnsigned t = none ↔ ¬ (digitRun t ∧ numeral t < 2 ^ 32)) ∧
  parseUnsigned [0x34, 0x32, 0x39, 0x34, 0x39, 0x36, 0x37, 0x32, 0x39, 0x35] = some 4294967295

/-- `dec_digits` and `dec_str` of R9: the number of digits, digits that read back as the number, no leading zero,
`"0"`. -/
def Obligations.DecimalPrintingReadsBack : Prop :=
  decDigits 0 = 0 ∧ decStr 0 = [0x30] ∧
  (∀ n : Nat, 0 < n → 10 ^ (decDigits n - 1) ≤ n ∧ n < 10 ^ decDigits n ∧ (decStr n).length = decDigits n ∧
    (decStr n).head? ≠ some 0x30) ∧
  (∀ n : Nat, digitRun (decStr n) ∧ numeral (decStr n) = n)

/-- R77, R79, R80: ENCODE on every request: a length above 32 names no string (status 4); a string of the grammar is
packed from what its digits spell, a missing fraction as 0; every other string is MalformedNumber (status 1, word 0). -/
def Obligations.EncodeAcceptsExactlyTheGrammar : Prop :=
  ∀ (len : StrLen) (str : Lanes) (s : State),
    (32 < len.toNat → exec (.encode len str) s = .next { s with rsp := conditionRegs 4 }) ∧
    (len.toNat ≤ 32 →
      (∀ neg int frac, requestString len str = spelled neg int frac → acceptedParts int frac →
        exec (.encode len str) s =
          .next { s with rsp := wordRegs (pack neg (numeral int) (fracNumeral frac)) }) ∧
      (¬ accepted (requestString len str) → exec (.encode len str) s = .next { s with rsp := conditionRegs 1 })) ∧
    ∀ r : Request, r.op = 0x2 → r.len = len → r.str = str → decode r = .instr (.encode len str)

/-- R88: what the format cannot hold: leading zeros of a fraction are lost and its trailing zeros kept, leading zeros
of the integer part and a missing `.0` make no difference. -/
def Obligations.EncodeKeepsOnlyFractionTrailingZeros : Prop :=
  (∀ neg int f, acceptedParts int (some f) → (spelled neg int (some f)).length ≤ 31 →
    answer (encodeInstr (spelled neg int (some (0x30 :: f)))) = answer (encodeInstr (spelled neg int (some f))) ∧
    answer (encodeInstr (spelled neg (0x30 :: int) (some f))) = answer (encodeInstr (spelled neg int (some f)))) ∧
  (∀ neg int, acceptedParts int none → (spelled neg int none).length ≤ 30 →
    answer (encodeInstr (spelled neg int none)) = answer (encodeInstr (spelled neg int (some [0x30])))) ∧
  (∀ (neg : Bool) (iv fv : Nat), 0 < fv → fits iv (fv * 10) →
    pack neg iv (fv * 10) ≠ pack neg iv fv ∧ wordVal (pack neg iv (fv * 10)) = wordVal (pack neg iv fv)) ∧
  answer (encodeInstr [0x30, 0x2E, 0x30, 0x32]) = wordRegs 0x10000002 ∧
  answer (encodeInstr [0x30, 0x2E, 0x32]) = wordRegs 0x10000002 ∧ wordVal 0x10000002 = 2 / 10 ∧
  answer (encodeInstr [0x31, 0x30, 0x30, 0x2E, 0x30, 0x30, 0x31]) = wordRegs 0x080000C9 ∧
  answer (encodeInstr [0x30, 0x2E, 0x33, 0x30]) = wordRegs 0x2800001E ∧
  answer (encodeInstr [0x30, 0x2E, 0x33]) = wordRegs 0x10000003 ∧
  answer (.decode 0x080000C9) = stringRegs [0x31, 0x30, 0x30, 0x2E, 0x31] ∧
  answer (.decode 0x10000003) = stringRegs [0x30, 0x2E, 0x33] ∧
  answer (.decode 0x2800001E) = stringRegs [0x30, 0x2E, 0x33, 0x30]

/-- R82: DECODE prints every word: `'-'` when bit 26 is 1, the integer part, a dot, the fraction digits; word 0,
status 0. -/
def Obligations.DecodePrintsTheParts : Prop :=
  ∀ (a : Word) (s : State),
    let pc := min (pointerField a) 26
    exec (.decode a) s =
      .next { s with
        rsp := stringRegs ((if a.getLsbD 26 then [0x2D] else []) ++ decStr (valueField a / 2 ^ pc) ++ [0x2E] ++
          decStr (valueField a % 2 ^ pc)) } ∧
    ∀ r : Request, r.op = 0x3 → r.a = a → decode r = .instr (.decode a)

/-- R84 (by the spec's own inference): the alphabet and length of DECODE's output: an optional sign and two digit runs
without needless leading zeros, 9 digits in all at most, so 3 to 11 bytes; both ends are reached. -/
def Obligations.DecodeOutputShape : Prop :=
  (∀ a : Word, ∃ (neg : Bool) (int frac : List Byte),
    requestString (answer (.decode a)).len (answer (.decode a)).str = spelled neg int (some frac) ∧
    digitRun int ∧ digitRun frac ∧ (int.head? = some 0x30 → int = [0x30]) ∧ (frac.head? = some 0x30 → frac = [0x30]) ∧
    int.length + frac.length ≤ 9 ∧ 3 ≤ (answer (.decode a)).len.toNat ∧ (answer (.decode a)).len.toNat ≤ 11) ∧
  (answer (.decode 0xD7FFFFFF)).len = 11 ∧ (answer (.decode 0x0FFFFFFF)).len = 11 ∧ (answer (.decode 0x00000000)).len = 3

/-- R29 (by the spec's own inference): the number a word denotes is the numeral DECODE prints for it, read as an
ordinary decimal. -/
def Obligations.ValueIsThePrintedNumeral : Prop :=
  (∀ w : Word, ∃ int frac : List Byte, digitRun int ∧ digitRun frac ∧
    answer (.decode w) = stringRegs (spelled (signBit w) int (some frac)) ∧
    wordVal w = signFactor (signBit w) * (numeral int + numeral frac / 10 ^ frac.length)) ∧
  (∀ w : Word, (wordVal w = 0 ↔ valueField w = 0) ∧
    ((unpack w).int = 0 ∧ (unpack w).frac = 0 ↔ valueField w = 0)) ∧
  wordVal 0x380001FD = 3125 / 1000 ∧ wordVal 0x10000003 = 3 / 10 ∧ wordVal 0x2800001E = 3 / 10 ∧
  wordVal 0x34000322 = -1234 / 100 ∧ wordVal 0x04000000 = 0

/-- R85 (by the spec's own inference): DECODE then ENCODE gives back every well-formed word; for every other word it
gives `pack(unpack(w))`, well-formed and printed the same, but for a negative zero, printed with its sign and encoded
again as 0. -/
def Obligations.DecodeThenEncodeGivesWordBack : Prop :=
  ∀ (w : Word) (s : State), ∃ t u : State,
    exec (.decode w) s = .next t ∧ exec (.encode t.rsp.len t.rsp.str) t = .next u ∧
    u.rsp = wordRegs (pack (unpack w).neg (unpack w).int (unpack w).frac) ∧ wordWellFormed u.rsp.word = true ∧
    (wordWellFormed w = true → u.rsp.word = w) ∧
    (¬ negativeZero w → answer (.decode u.rsp.word) = t.rsp) ∧
    (negativeZero w → t.rsp = stringRegs [0x2D, 0x30, 0x2E, 0x30] ∧ u.rsp.word = 0)

/-- R86 (by the spec's own inference): ENCODE then DECODE gives back a string exactly when it is a canonical spelling
within the budget other than `-0.0`; every other accepted string comes back as the canonical spelling of what was
stored. -/
def Obligations.RoundTripKeepsExactlyCanonicalStrings : Prop :=
  ∀ (len : StrLen) (str : Lanes) (s : State), len.toNat ≤ 32 →
    (roundTrips (requestString len str) ↔
      ∃ t u, exec (.encode len str) s = .next t ∧ t.rsp.status = 0 ∧ exec (.decode t.rsp.word) t = .next u ∧
        requestString u.rsp.len u.rsp.str = requestString len str) ∧
    (accepted (requestString len str) →
      ∃ t u, exec (.encode len str) s = .next t ∧ t.rsp.status = 0 ∧ exec (.decode t.rsp.word) t = .next u ∧
        roundTrips (requestString u.rsp.len u.rsp.str))

/-! ### The engine -/

/-- R101: the scaled integer of a word denotes the word's number, and its bounds. -/
def Obligations.ScaledIntegerDenotesTheWord : Prop :=
  (∀ w : Word,
    (scaled w).neg = signBit w ∧ (scaled w).places = decDigits (unpack w).frac ∧
    (scaled w).mag = (unpack w).int * 10 ^ decDigits (unpack w).frac + (unpack w).frac ∧
    wordVal w = signFactor (signBit w) * (scaled w).mag / 10 ^ (scaled w).places ∧
    (scaled w).places ≤ 8 ∧ (scaled w).mag < 2 ^ 26 * 10 ^ 8) ∧
  2 ^ 26 * 10 ^ 8 < 2 ^ 53 ∧
  scaled 0x380001FD = ⟨false, 3125, 3⟩ ∧ scaled 0x08000001 = ⟨false, 1, 1⟩ ∧ scaled 0x28000019 = ⟨false, 25, 2⟩ ∧
  scaled 0x00000005 = ⟨false, 5, 0⟩ ∧ scaled 0x34000322 = ⟨true, 1234, 2⟩ ∧ scaled 0x2800001E = ⟨false, 30, 2⟩

/-- R102 to R105: ADD and SUB align to the larger digit count, take the signed total, and pack its decomposition. -/
def Obligations.AddAndSubPackTheSignedTotal : Prop :=
  ∀ (a b : Word) (s : State),
    let D := max (scaled a).places (scaled b).places
    let ma := (scaled a).mag * 10 ^ (D - (scaled a).places)
    let mb := (scaled b).mag * 10 ^ (D - (scaled b).places)
    let ta : Int := if signBit a then -(ma : Int) else ma
    let tb : Int := if signBit b then -(mb : Int) else mb
    let packed (t : Int) : Word := pack (decide (t < 0)) (t.natAbs / 10 ^ D) (t.natAbs % 10 ^ D)
    exec (.add a b) s = .next { s with rsp := wordRegs (packed (ta + tb)) } ∧
    exec (.sub a b) s = .next { s with rsp := wordRegs (packed (ta - tb)) } ∧
    (∀ r : Request, r.op = 0x4 → r.a = a → r.b = b → decode r = .instr (.add a b)) ∧
    (∀ r : Request, r.op = 0x5 → r.a = a → r.b = b → decode r = .instr (.sub a b))

/-- R109 (by the spec's own inference): the laws of ADD and SUB, for all words, and that ADD is not associative. -/
def Obligations.AddAndSubLaws : Prop :=
  (∀ a b : Word, answer (.add a b) = answer (.add b a)) ∧
  (∀ a : Word, answer (.sub a a) = wordRegs 0x00000000) ∧
  (∀ a : Word, answer (.add a 0x00000000) = wordRegs (pack (unpack a).neg (unpack a).int (unpack a).frac)) ∧
  (∀ a : Word, wordWellFormed a = true → answer (.add a 0x00000000) = wordRegs a) ∧
  (∀ a : Word, ¬ negativeZero a → answer (.decode (answer (.add a 0x00000000)).word) = answer (.decode a)) ∧
  (∀ a b : Word, answer (.sub a b) = answer (.add a (answer (.neg b)).word)) ∧
  (∃ a b c : Word, answer (.add (answer (.add a b)).word c) ≠ answer (.add a (answer (.add b c)).word))

/-- R110 (by the spec's own inference): when the word ADD or SUB returns denotes the exact result: exactly when the
triple fits and its fraction has no leading zero; with a leading zero it denotes a larger magnitude; a fraction that
is kept has `D` digits. -/
def Obligations.AddAndSubExactness : Prop :=
  ∀ a b : Word, ∀ i : Instr, ∀ x : Exact, ∀ v : ℚ,
    (i = .add a b ∧ x = addExact a b ∧ v = wordVal a + wordVal b) ∨
      (i = .sub a b ∧ x = subExact a b ∧ v = wordVal a - wordVal b) →
    x.val = v ∧ x.places = max (scaled a).places (scaled b).places ∧ (answer i).status = 0 ∧
    (wordVal (answer i).word = v ↔ fits x.int x.frac ∧ x.fullFraction) ∧
    (fits x.int x.frac → ¬ x.fullFraction → |v| < |wordVal (answer i).word|) ∧
    (fits x.int x.frac → x.frac ≠ 0 → x.fullFraction → decDigits (unpack (answer i).word).frac = x.places)

/-- R108 (by the spec's own inference): an operand counts only by its parts: the result is that of the repacked
operands. -/
def Obligations.OperandsCountOnlyByTheirParts : Prop :=
  ∀ a b : Word,
    let repack (w : Word) : Word := pack (unpack w).neg (unpack w).int (unpack w).frac
    answer (.add a b) = answer (.add (repack a) (repack b)) ∧ answer (.sub a b) = answer (.sub (repack a) (repack b)) ∧
    answer (.mul a b) = answer (.mul (repack a) (repack b)) ∧ answer (.div a b) = answer (.div (repack a) (repack b))

/-- R120, R122: MUL packs the product of the magnitudes at the sum of the digit counts, no trailing zero trimmed. -/
def Obligations.MulPacksTheProduct : Prop :=
  ∀ (a b : Word) (s : State),
    let D := (scaled a).places + (scaled b).places
    let m := (scaled a).mag * (scaled b).mag
    exec (.mul a b) s =
      .next { s with rsp := wordRegs (pack (xor (signBit a) (signBit b)) (m / 10 ^ D) (m % 10 ^ D)) } ∧
    ((unpack a).frac = 0 → (scaled a).places = 0) ∧
    (∀ r : Request, r.op = 0x6 → r.a = a → r.b = b → decode r = .instr (.mul a b))

/-- R121: the sign of a product is the XOR of the operand sign bits as they stand, cleared when the value field is 0. -/
def Obligations.ProductSignIsXorOfSigns : Prop :=
  ∀ a b : Word,
    (mulExact a b).neg = xor (signBit a) (signBit b) ∧
    signBit (answer (.mul a b)).word =
      (xor (signBit a) (signBit b) && decide (valueField (answer (.mul a b)).word ≠ 0))

/-- R123 (by the spec's own inference): the laws of MUL, and when its word denotes the exact product. -/
def Obligations.MulLawsAndExactness : Prop :=
  (∀ a b : Word, answer (.mul a b) = answer (.mul b a)) ∧
  (∀ a : Word, answer (.mul a 0x00000001) = wordRegs (pack (unpack a).neg (unpack a).int (unpack a).frac)) ∧
  (∀ a : Word, wordWellFormed a = true → answer (.mul a 0x00000001) = wordRegs a) ∧
  (∀ a : Word, answer (.mul a 0x00000000) = wordRegs 0x00000000) ∧
  (∀ a b : Word, (mulExact a b).val = wordVal a * wordVal b ∧
    (wordVal (answer (.mul a b)).word = wordVal a * wordVal b ↔
      fits (mulExact a b).int (mulExact a b).frac ∧ (mulExact a b).fullFraction)) ∧
  (mulExact 0x08000001 0x10000002).val = 2 / 100 ∧ answer (.mul 0x08000001 0x10000002) = wordRegs 0x10000002

/-- R125: DIV by a word whose value field is 0, whatever its pointer and sign and whatever the dividend, is status 2. -/
def Obligations.ZeroDivisorRaisesDivisionByZero : Prop :=
  ∀ (a b : Word) (s : State),
    (valueField b = 0 → (scaled b).mag = 0 ∧
      exec (.div a b) s =
        .next { s with rsp := { valid := true, status := 2, word := 0, len := 0, str := Vector.replicate 32 0 } }) ∧
    ((answer (.div a b)).status = 2 → valueField b = 0)

/-- R127: DIV answers status 3 and word 0 exactly when the divisor is not zero and no number of decimal digits holds
the quotient; the examples of the rule. -/
def Obligations.NonTerminatingQuotientRaisesInexact : Prop :=
  (∀ (a b : Word) (s : State), valueField b ≠ 0 →
    (¬ terminates a b ↔
      exec (.div a b) s =
        .next { s with rsp := { valid := true, status := 3, word := 0, len := 0, str := Vector.replicate 32 0 } })) ∧
  answer (.div 0x00000001 0x00000003) = conditionRegs 3 ∧ answer (.div 0x00000002 0x10000003) = conditionRegs 3 ∧
  answer (.div 0x00000001 0x00000007) = conditionRegs 3 ∧ answer (.div 0x08000001 0x10000003) = conditionRegs 3 ∧
  answer (.div 0x18000006 0x10000003) = wordRegs 0x00000002

/-- R124, R126: when `k` decimal digits hold the quotient of the magnitudes as `m / 10^k` and no fewer do, DIV answers
the word packed from the XOR of the signs (R124's `neg`) and from `m` cut at the point; that fraction has no trailing
zero, and a quotient that terminates has such a `k`. A zero divisor, tested first, and a quotient that does not terminate
answer their conditions. -/
def Obligations.DivGivesFewestDigits : Prop :=
  (∀ (a b : Word) (s : State) (m k : Nat), valueField b ≠ 0 → quotientIs a b m k →
    (∀ j < k, ¬ ∃ n, quotientIs a b n j) →
    exec (.div a b) s =
      .next { s with rsp := wordRegs (pack (xor (signBit a) (signBit b)) (m / 10 ^ k) (m % 10 ^ k)) } ∧
    (m % 10 ^ k = 0 ∨ m % 10 ^ k % 10 ≠ 0)) ∧
  (∀ a b : Word, valueField b ≠ 0 → terminates a b →
    ∃ m k, quotientIs a b m k ∧ ∀ j < k, ¬ ∃ n, quotientIs a b n j) ∧
  (∀ (a b : Word) (s : State),
    (valueField b = 0 → exec (.div a b) s = .next { s with rsp := conditionRegs 2 }) ∧
    (valueField b ≠ 0 → ¬ terminates a b → exec (.div a b) s = .next { s with rsp := conditionRegs 3 })) ∧
  (∀ (a b : Word) (x : Exact), divExact a b = .ok x →
    let den := quotientDen a b / Nat.gcd (quotientNum a b) (quotientDen a b)
    IsLeast { k : Nat | den ∣ 10 ^ k } x.places ∧ x.places = max (exponentOf 2 den) (exponentOf 5 den)) ∧
  answer (.div 0x10000003 0x08000001) = wordRegs 0x00000003 ∧
  (∀ (a b : Word) (r : Request), r.op = 0x7 → r.a = a → r.b = b → decode r = .instr (.div a b))

/-- R128 (general knowledge, says the spec): a fraction in lowest terms has a finite decimal expansion exactly when
its denominator has no prime factor but 2 and 5, and then the fewest digits are the larger of the exponents DIV
computes. -/
def Obligations.TerminatingFractionsAreTwosAndFives : Prop :=
  ∀ num den : Nat, 0 < den → Nat.Coprime num den →
    ((∃ m k : Nat, (num : ℚ) / den = m / 10 ^ k) ↔ ∀ p : Nat, p.Prime → p ∣ den → p = 2 ∨ p = 5) ∧
    ((∃ m k : Nat, (num : ℚ) / den = m / 10 ^ k) ↔ den = 2 ^ exponentOf 2 den * 5 ^ exponentOf 5 den) ∧
    ((∃ m k : Nat, (num : ℚ) / den = m / 10 ^ k) →
      IsLeast { k : Nat | ∃ m : Nat, (num : ℚ) / den = m / 10 ^ k } (max (exponentOf 2 den) (exponentOf 5 den)))

/-- R130 (by the spec's own inference): the laws of DIV, when its word denotes the exact quotient, and that DIV alone
of the four raises a condition. -/
def Obligations.DivLawsAndExactness : Prop :=
  (∀ (a b : Word) (x : Exact), divExact a b = .ok x → (answer (.div a b)).status = 0 ∧ x.val = wordVal a / wordVal b ∧
    (wordVal (answer (.div a b)).word = wordVal a / wordVal b ↔ fits x.int x.frac ∧ x.fullFraction)) ∧
  (∀ a b : Word, (answer (.div a b)).status = 0 → ∃ x, divExact a b = .ok x) ∧
  (∀ a b : Word, (answer (.div a b)).status = 0 → signBit (answer (.div a b)).word =
    (xor (signBit a) (signBit b) && decide (valueField (answer (.div a b)).word ≠ 0))) ∧
  (∀ a : Word, valueField a ≠ 0 → answer (.div a a) = wordRegs 0x00000001) ∧
  (∀ a : Word, (answer (.div a 0x00000001)).status = 0 ∧ wordVal (answer (.div a 0x00000001)).word = wordVal a ∧
    ((unpack (answer (.div a 0x00000001)).word).frac = 0 ∨ (unpack (answer (.div a 0x00000001)).word).frac % 10 ≠ 0)) ∧
  answer (.div 0x2800001E 0x00000001) = wordRegs 0x10000003 ∧
  (∀ a b : Word, (answer (.add a b)).status = 0 ∧ (answer (.sub a b)).status = 0 ∧ (answer (.mul a b)).status = 0) ∧
  (∃ a b : Word, (answer (.div a b)).status ≠ 0) ∧
  (∃ a b : Word, valueField b ≠ 0 ∧ answer (.div (answer (.mul a b)).word b) ≠ wordRegs a)

/-- The sizes of R107 and R131 (by the spec's own inference): totals, products, quotients and exponents stay below the
bounds the spec derives. -/
def Obligations.EngineSizesAreBounded : Prop :=
  ∀ a b : Word,
    |alignedTotal a (commonPlaces a b) + alignedTotal b (commonPlaces a b)| < 2 ^ 81 ∧
    |alignedTotal a (commonPlaces a b) - alignedTotal b (commonPlaces a b)| < 2 ^ 81 ∧
    (scaled a).mag * (scaled b).mag < 2 ^ 106 ∧ quotientNum a b < 2 ^ 80 ∧ quotientDen a b < 2 ^ 80 ∧
    ∀ x, divExact a b = .ok x → x.places ≤ 79 ∧ x.int * 10 ^ x.places + x.frac < 2 ^ 343 ∧
      bitLength x.frac ≤ 263

/-! ### NEG -/

/-- R140: NEG flips bit 26 and nothing else, or nothing at all when the value field is 0. -/
def Obligations.NegFlipsOnlyTheSign : Prop :=
  ∀ (a : Word) (s : State),
    exec (.neg a) s = .next { s with rsp := wordRegs (if valueField a = 0 then a else a ^^^ 0x04000000) } ∧
    (valueField a ≠ 0 → ∀ i, (answer (.neg a)).word.getLsbD i = (if i = 26 then !a.getLsbD 26 else a.getLsbD i)) ∧
    (∀ r : Request, r.op = 0x8 → r.a = a → decode r = .instr (.neg a))

/-- R141 (by the spec's own inference): NEG undoes itself, keeps words well-formed, negates the number, and adds or
removes the printed sign. -/
def Obligations.NegProperties : Prop :=
  ∀ w : Word,
    answer (.neg (answer (.neg w)).word) = wordRegs w ∧
    (wordWellFormed w = true → wordWellFormed (answer (.neg w)).word = true) ∧
    wordVal (answer (.neg w)).word = -wordVal w ∧
    (valueField w ≠ 0 → ∃ t : List Byte, t.length ≤ 10 ∧
      (signBit w = false → answer (.decode w) = stringRegs t ∧
        answer (.decode (answer (.neg w)).word) = stringRegs (0x2D :: t)) ∧
      (signBit w = true → answer (.decode w) = stringRegs (0x2D :: t) ∧
        answer (.decode (answer (.neg w)).word) = stringRegs t))

/-- R142 (by the spec's own inference): NEG and the engine: subtraction is addition of the negation, a word and its
negation add to zero, and no sequence of operations that starts from encoded strings makes a negative zero. -/
def Obligations.NegAgreesWithTheEngine : Prop :=
  (∀ a b : Word, answer (.sub a b) = answer (.add a (answer (.neg b)).word)) ∧
  (∀ a : Word, answer (.add a (answer (.neg a)).word) = wordRegs 0x00000000) ∧
  (∀ b : Word, valueField b = 0 → answer (.neg b) = wordRegs b) ∧
  (∀ w : Word, Produced w → ¬ negativeZero w)
end

