-- ==== Sys2Proof/Laws/Numerals.lean ====
section
/-! SUPPORT. What the number functions of `Machine/Numerals.lean` satisfy; later proofs cite these and do not unfold them. -/

namespace Sys2Proof.Machine

/-! ### Bit length -/

@[simp] theorem bitLength_zero : bitLength 0 = 0 := rfl

theorem bitLength_of_pos {n : Nat} (h : 0 < n) : bitLength n = Nat.log2 n + 1 := by
  simp [bitLength, h.ne']

theorem bitLength_le_iff {n k : Nat} : bitLength n ≤ k ↔ n < 2 ^ k := by
  rcases Nat.eq_zero_or_pos n with rfl | h
  · simp
  · rw [bitLength_of_pos h, Nat.succ_le_iff, Nat.log2_lt h.ne']

theorem lt_two_pow_bitLength (n : Nat) : n < 2 ^ bitLength n := bitLength_le_iff.1 le_rfl

theorem lt_bitLength_iff {n k : Nat} : k < bitLength n ↔ 2 ^ k ≤ n := by
  rw [← not_iff_not, not_lt, not_le, bitLength_le_iff]

theorem bitLength_pos_iff {n : Nat} : 0 < bitLength n ↔ 0 < n := by
  rw [lt_bitLength_iff, pow_zero]; omega

@[simp] theorem bitLength_eq_zero_iff {n : Nat} : bitLength n = 0 ↔ n = 0 := by
  have := bitLength_pos_iff (n := n); omega

theorem two_pow_le_of_pos {n : Nat} (h : 0 < n) : 2 ^ (bitLength n - 1) ≤ n := by
  apply lt_bitLength_iff.1
  have := bitLength_pos_iff.2 h; omega

theorem bitLength_mono {m n : Nat} (h : m ≤ n) : bitLength m ≤ bitLength n :=
  bitLength_le_iff.2 (h.trans_lt (lt_two_pow_bitLength n))

theorem bitLength_eq_iff_of_pos {n k : Nat} (h : 0 < n) :
    bitLength n = k ↔ 2 ^ (k - 1) ≤ n ∧ n < 2 ^ k := by
  constructor
  · rintro rfl
    exact ⟨two_pow_le_of_pos h, lt_two_pow_bitLength n⟩
  · rintro ⟨h1, h2⟩
    have h3 := bitLength_le_iff.2 h2
    have h4 := lt_bitLength_iff.2 h1
    omega

theorem bitLength_shift {n : Nat} (h : 0 < n) : bitLength n = bitLength (n >>> 1) + 1 := by
  have h2 := two_pow_le_of_pos h
  have h3 := lt_two_pow_bitLength n
  have hp := bitLength_pos_iff.2 h
  obtain ⟨k, hk⟩ : ∃ k, bitLength n = k + 1 := ⟨bitLength n - 1, by omega⟩
  rw [hk] at h2 h3 ⊢
  rw [Nat.add_sub_cancel] at h2
  rw [Nat.shiftRight_one, Nat.add_right_cancel_iff]
  rcases Nat.eq_zero_or_pos k with rfl | hk0
  · symm; rw [bitLength_eq_zero_iff]; omega
  · obtain ⟨j, rfl⟩ : ∃ j, k = j + 1 := ⟨k - 1, by omega⟩
    rw [pow_succ] at h2 h3
    rw [pow_succ] at h3
    have : 0 < n / 2 := by have := Nat.two_pow_pos j; omega
    symm; rw [bitLength_eq_iff_of_pos this, Nat.add_sub_cancel, pow_succ]
    omega

/-! ### Decimal digits -/

theorem decimalDigitsFuel_eq {f g n : Nat} (hf : n ≤ f) (hg : n ≤ g) :
    decimalDigitsFuel f n = decimalDigitsFuel g n := by
  induction f generalizing g n with
  | zero =>
    obtain rfl : n = 0 := by omega
    cases g <;> simp [decimalDigitsFuel]
  | succ f ih =>
    rcases Nat.eq_zero_or_pos n with rfl | h
    · cases g <;> simp [decimalDigitsFuel]
    · obtain ⟨g, rfl⟩ : ∃ j, g = j + 1 := ⟨g - 1, by omega⟩
      simp only [decimalDigitsFuel, h.ne', if_false]
      rw [ih (g := g) (by omega) (by omega)]

@[simp] theorem decimalDigits_zero : decimalDigits 0 = [] := rfl

theorem decimalDigits_of_pos {n : Nat} (h : 0 < n) :
    decimalDigits n = decimalDigits (n / 10) ++ [n % 10] := by
  obtain ⟨k, rfl⟩ : ∃ j, n = j + 1 := ⟨n - 1, by omega⟩
  rw [decimalDigits, decimalDigitsFuel, if_neg (by omega), decimalDigits,
    decimalDigitsFuel_eq (g := (k + 1) / 10) (by omega) le_rfl]

theorem decimalDigits_lt_ten (n : Nat) : ∀ d ∈ decimalDigits n, d < 10 := by
  induction n using Nat.strong_induction_on with
  | _ n ih =>
    rcases Nat.eq_zero_or_pos n with rfl | h
    · simp
    · rw [decimalDigits_of_pos h]
      intro d hd
      rcases List.mem_append.1 hd with hd | hd
      · exact ih (n / 10) (by omega) d hd
      · simp at hd; omega

@[simp] theorem decDigits_zero : decDigits 0 = 0 := rfl

theorem decDigits_of_pos {n : Nat} (h : 0 < n) : decDigits n = decDigits (n / 10) + 1 := by
  rw [decDigits, if_neg h.ne', decimalDigits_of_pos h]
  rcases Nat.eq_zero_or_pos (n / 10) with h0 | h0
  · simp [h0]
  · simp [decDigits, h0.ne']

theorem decDigits_eq_length (n : Nat) : decDigits n = (decimalDigits n).length := by
  rcases Nat.eq_zero_or_pos n with rfl | h
  · rfl
  · simp [decDigits, h.ne']

theorem decDigits_le_iff {n k : Nat} : decDigits n ≤ k ↔ n < 10 ^ k := by
  induction k generalizing n with
  | zero =>
    rcases Nat.eq_zero_or_pos n with rfl | h
    · simp
    · rw [decDigits_of_pos h]; omega
  | succ k ih =>
    rcases Nat.eq_zero_or_pos n with rfl | h
    · simp
    · rw [decDigits_of_pos h, Nat.add_le_add_iff_right, ih, pow_succ,
        Nat.div_lt_iff_lt_mul (by norm_num)]

theorem lt_decDigits_iff {n k : Nat} : k < decDigits n ↔ 10 ^ k ≤ n := by
  rw [← not_iff_not, not_lt, not_le, decDigits_le_iff]

theorem lt_ten_pow_decDigits (n : Nat) : n < 10 ^ decDigits n := decDigits_le_iff.1 le_rfl

theorem decDigits_pos {n : Nat} (h : 0 < n) : 0 < decDigits n := by
  rw [lt_decDigits_iff, pow_zero]; omega

theorem ten_pow_le_of_pos {n : Nat} (h : 0 < n) : 10 ^ (decDigits n - 1) ≤ n := by
  apply lt_decDigits_iff.1
  have := decDigits_pos h; omega

theorem decDigits_mul_pow {n : Nat} (h : 0 < n) (j : Nat) : decDigits (n * 10 ^ j) = decDigits n + j := by
  apply le_antisymm
  · rw [decDigits_le_iff, pow_add]
    exact Nat.mul_lt_mul_of_pos_right (lt_ten_pow_decDigits n) (by positivity)
  · have h1 := ten_pow_le_of_pos h
    have h2 := decDigits_pos h
    have : decDigits n + j - 1 < decDigits (n * 10 ^ j) := by
      rw [lt_decDigits_iff, show decDigits n + j - 1 = decDigits n - 1 + j by omega, pow_add]
      exact Nat.mul_le_mul_right _ h1
    omega

/-! ### Exponents -/

theorem exponentFuel_spec {p : Nat} (hp : 2 ≤ p) {f n : Nat} (h : 0 < n) (hf : n ≤ f) :
    p ^ exponentFuel f p n ∣ n ∧ ¬ p ^ (exponentFuel f p n + 1) ∣ n := by
  induction f generalizing n with
  | zero => omega
  | succ f ih =>
    simp only [exponentFuel]
    split
    · next hd =>
      have hd' : p ∣ n := Nat.dvd_of_mod_eq_zero hd
      have hq : 0 < n / p := Nat.div_pos (Nat.le_of_dvd h hd') (by omega)
      have hlt : n / p < n := Nat.div_lt_self h (by omega)
      obtain ⟨h1, h2⟩ := ih hq (by omega)
      obtain ⟨q, rfl⟩ := hd'
      rw [Nat.mul_div_cancel_left _ (by omega)] at h1 h2 ⊢
      refine ⟨?_, fun h3 => h2 ?_⟩
      · rw [pow_succ, mul_comm]; exact Nat.mul_dvd_mul_left p h1
      · rw [pow_succ, mul_comm] at h3
        exact Nat.dvd_of_mul_dvd_mul_left (by omega) h3
    · next hd =>
      refine ⟨by simp, ?_⟩
      simpa using fun h3 => hd (Nat.mod_eq_zero_of_dvd h3)

theorem exponentOf_dvd {p n : Nat} (hp : 2 ≤ p) (h : 0 < n) : p ^ exponentOf p n ∣ n :=
  (exponentFuel_spec hp h le_rfl).1

theorem not_dvd_exponentOf_succ {p n : Nat} (hp : 2 ≤ p) (h : 0 < n) : ¬ p ^ (exponentOf p n + 1) ∣ n :=
  (exponentFuel_spec hp h le_rfl).2

/-- `exponentOf p n` is the largest exponent (R124). -/
theorem pow_dvd_iff_le_exponentOf {p n e : Nat} (hp : 2 ≤ p) (h : 0 < n) : p ^ e ∣ n ↔ e ≤ exponentOf p n := by
  constructor
  · intro hd
    by_contra hlt
    exact not_dvd_exponentOf_succ hp h ((pow_dvd_pow p (by omega)).trans hd)
  · exact fun hle => (pow_dvd_pow p hle).trans (exponentOf_dvd hp h)

/-- The test of R124 says exactly that some power of ten is a multiple of the denominator (R128, G2). -/
theorem dvd_ten_pow_iff {n k : Nat} (h : 0 < n) :
    n ∣ 10 ^ k ↔ n = 2 ^ exponentOf 2 n * 5 ^ exponentOf 5 n ∧ max (exponentOf 2 n) (exponentOf 5 n) ≤ k := by
  have hc : ∀ a b : Nat, Nat.Coprime (2 ^ a) (5 ^ b) := fun a b => Nat.Coprime.pow a b (by norm_num)
  have hmul : 2 ^ exponentOf 2 n * 5 ^ exponentOf 5 n ∣ n :=
    (hc _ _).mul_dvd_of_dvd_of_dvd (exponentOf_dvd (by norm_num) h) (exponentOf_dvd (by norm_num) h)
  have hten : (10 : Nat) ^ k = 2 ^ k * 5 ^ k := by rw [← Nat.mul_pow]
  constructor
  · intro hd
    rw [hten] at hd
    obtain ⟨x, y, hx, hy, rfl⟩ := (Nat.dvd_mul).1 hd
    obtain ⟨i, hi, rfl⟩ := (Nat.dvd_prime_pow Nat.prime_two).1 hx
    obtain ⟨j, hj, rfl⟩ := (Nat.dvd_prime_pow Nat.prime_five).1 hy
    have h2 : exponentOf 2 (2 ^ i * 5 ^ j) = i := by
      apply le_antisymm
      · have := (exponentOf_dvd (p := 2) (by norm_num) h)
        exact (Nat.pow_dvd_pow_iff_le_right (by norm_num)).1 ((hc _ _).dvd_of_dvd_mul_right this)
      · exact (pow_dvd_iff_le_exponentOf (by norm_num) h).1 (Dvd.intro _ rfl)
    have h5 : exponentOf 5 (2 ^ i * 5 ^ j) = j := by
      apply le_antisymm
      · have := (exponentOf_dvd (p := 5) (by norm_num) h)
        exact (Nat.pow_dvd_pow_iff_le_right (by norm_num)).1 ((hc _ _).symm.dvd_of_dvd_mul_left this)
      · exact (pow_dvd_iff_le_exponentOf (by norm_num) h).1 (Dvd.intro_left _ rfl)
    rw [h2, h5]
    exact ⟨rfl, max_le hi hj⟩
  · rintro ⟨he, hk⟩
    rw [he, hten]
    exact Nat.mul_dvd_mul (pow_dvd_pow 2 (le_of_max_le_left hk)) (pow_dvd_pow 5 (le_of_max_le_right hk))

end Sys2Proof.Machine
end

