-- ==== Sys2Proof/Laws/Packed.lean ====
section
/-! SUPPORT. The packed word: what its three fields are after `pack`, what `unpack` splits, and that within the budget the
one undoes the other. -/

namespace Sys2Proof.Machine

/-! ### The fields of a word as numbers -/

theorem pointerField_eq (w : Word) : pointerField w = w.toNat / 2 ^ 27 := by
  have := w.isLt
  simp only [pointerField, BitVec.extractLsb'_toNat, Nat.shiftRight_eq_div_pow]
  omega

theorem valueField_eq (w : Word) : valueField w = w.toNat % 2 ^ 26 := by
  simp [valueField, BitVec.extractLsb'_toNat]

/-- The two places the layout is read: the block's is sign-magnitude. -/
theorem signBit_eq_getLsbD (w : Word) : signBit w = w.getLsbD 26 := rfl

theorem pack_eq (neg : Bool) (iv fv : Nat) :
    pack neg iv fv =
      BitVec.ofNat 32 (((bitLength fv % 32) <<< 27) |||
        ((if neg && packValue iv fv != 0 then 1 else 0) <<< 26) ||| packValue iv fv) := rfl

theorem signBit_eq (w : Word) : signBit w = decide (w.toNat / 2 ^ 26 % 2 = 1) := by
  simp [signBit_eq_getLsbD, BitVec.getLsbD, Nat.testBit_eq_decide_div_mod_eq]

theorem pointerField_lt (w : Word) : pointerField w < 32 := by
  have := w.isLt
  rw [pointerField_eq]; omega

theorem valueField_lt (w : Word) : valueField w < 2 ^ 26 := by
  rw [valueField_eq]; exact Nat.mod_lt _ (by norm_num)

/-- A word is its three fields (R20). -/
theorem toNat_eq_fields (w : Word) :
    w.toNat = pointerField w * 2 ^ 27 + (signBit w).toNat * 2 ^ 26 + valueField w := by
  have := w.isLt
  rw [pointerField_eq, valueField_eq, signBit_eq]
  by_cases h : w.toNat / 2 ^ 26 % 2 = 1 <;> simp only [h, decide_true, decide_false, Bool.toNat_true, Bool.toNat_false] <;> omega

/-- Two words with equal fields are equal. -/
theorem word_ext {w v : Word} (hp : pointerField w = pointerField v) (hs : signBit w = signBit v)
    (hv : valueField w = valueField v) : w = v := by
  apply BitVec.eq_of_toNat_eq
  rw [toNat_eq_fields w, toNat_eq_fields v, hp, hs, hv]

theorem assemble_eq_add {p v : Nat} (s : Bool) (hv : v < 2 ^ 26) :
    ((p <<< 27) ||| ((if s then 1 else 0) <<< 26) ||| v) = p * 2 ^ 27 + s.toNat * 2 ^ 26 + v := by
  have h1 : ((p <<< 27) ||| ((if s then 1 else 0) <<< 26)) = p * 2 ^ 27 + s.toNat * 2 ^ 26 := by
    rw [Nat.shiftLeft_eq p, mul_comm p, ← Nat.two_pow_add_eq_or_of_lt (by cases s <;> simp)]
    cases s <;> simp
  have h2 : p * 2 ^ 27 + s.toNat * 2 ^ 26 = 2 ^ 26 * (2 * p + s.toNat) := by ring
  rw [h1, h2, Nat.two_pow_add_eq_or_of_lt hv]

theorem packValue_lt (iv fv : Nat) : packValue iv fv < 2 ^ 26 := Nat.mod_lt _ (by norm_num)

/-- Step 5 of `pack` as arithmetic: the fraction fits below the shifted integer part. -/
theorem packValue_eq (iv fv : Nat) : packValue iv fv = (iv * 2 ^ bitLength fv + fv) % 2 ^ 26 := by
  rw [packValue, Nat.shiftLeft_eq, mul_comm, Nat.two_pow_add_eq_or_of_lt (lt_two_pow_bitLength fv)]

theorem pack_toNat (neg : Bool) (iv fv : Nat) :
    (pack neg iv fv).toNat =
      bitLength fv % 32 * 2 ^ 27 + (neg && packValue iv fv != 0).toNat * 2 ^ 26 + packValue iv fv := by
  have hv := packValue_lt iv fv
  rw [pack_eq, BitVec.toNat_ofNat, assemble_eq_add _ hv, Nat.mod_eq_of_lt]
  have := (neg && packValue iv fv != 0).toNat_le
  omega

@[simp] theorem pointerField_pack (neg : Bool) (iv fv : Nat) : pointerField (pack neg iv fv) = bitLength fv % 32 := by
  have hv := packValue_lt iv fv
  have := (neg && packValue iv fv != 0).toNat_le
  rw [pointerField_eq, pack_toNat]; omega

@[simp] theorem valueField_pack (neg : Bool) (iv fv : Nat) : valueField (pack neg iv fv) = packValue iv fv := by
  have hv := packValue_lt iv fv
  rw [valueField_eq, pack_toNat]; omega

@[simp] theorem signBit_pack (neg : Bool) (iv fv : Nat) :
    signBit (pack neg iv fv) = (neg && packValue iv fv != 0) := by
  have hv := packValue_lt iv fv
  rw [signBit_eq, pack_toNat]
  cases (neg && packValue iv fv != 0) <;> simp <;> omega

/-! ### unpack -/

theorem unpack_neg (w : Word) : (unpack w).neg = signBit w := rfl

theorem unpack_int (w : Word) : (unpack w).int = valueField w / 2 ^ min (pointerField w) 26 := by
  simp [unpack, Nat.shiftRight_eq_div_pow]

theorem unpack_frac (w : Word) : (unpack w).frac = valueField w % 2 ^ min (pointerField w) 26 := rfl

theorem unpack_frac_lt (w : Word) : (unpack w).frac < 2 ^ min (pointerField w) 26 := by
  rw [unpack_frac]; exact Nat.mod_lt _ (by positivity)

theorem unpack_int_lt (w : Word) : (unpack w).int < 2 ^ (26 - min (pointerField w) 26) := by
  rw [unpack_int, Nat.div_lt_iff_lt_mul (by positivity), ← pow_add]
  have : 26 - min (pointerField w) 26 + min (pointerField w) 26 = 26 := by omega
  rw [this]; exact valueField_lt w

theorem valueField_split (w : Word) :
    valueField w = (unpack w).int * 2 ^ min (pointerField w) 26 + (unpack w).frac := by
  rw [unpack_int, unpack_frac, mul_comm, Nat.div_add_mod]

/-- Whatever the word, its parts fit the budget (R76). -/
theorem fits_unpack (w : Word) : fits (unpack w).int (unpack w).frac := by
  have h1 := bitLength_le_iff.2 (unpack_int_lt w)
  have h2 := bitLength_le_iff.2 (unpack_frac_lt w)
  unfold fits; omega

/-- A word decodes to zero exactly when its value field is 0 (R25). -/
theorem unpack_eq_zero_iff (w : Word) : (unpack w).int = 0 ∧ (unpack w).frac = 0 ↔ valueField w = 0 := by
  constructor
  · rintro ⟨h1, h2⟩; rw [valueField_split, h1, h2]; simp
  · intro h; rw [unpack_int, unpack_frac, h]; simp

/-! ### pack within the budget -/

/-- Inside the budget nothing is cut (R87). -/
theorem packValue_of_fits {iv fv : Nat} (h : fits iv fv) : packValue iv fv = iv * 2 ^ bitLength fv + fv := by
  rw [packValue_eq, Nat.mod_eq_of_lt]
  have h1 := lt_two_pow_bitLength iv
  have h2 := lt_two_pow_bitLength fv
  calc iv * 2 ^ bitLength fv + fv < (iv + 1) * 2 ^ bitLength fv := by rw [add_mul, one_mul]; omega
    _ ≤ 2 ^ bitLength iv * 2 ^ bitLength fv := Nat.mul_le_mul_right _ h1
    _ = 2 ^ (bitLength iv + bitLength fv) := (pow_add _ _ _).symm
    _ ≤ 2 ^ 26 := Nat.pow_le_pow_right (by norm_num) h

theorem packValue_eq_zero_iff {iv fv : Nat} (h : fits iv fv) : packValue iv fv = 0 ↔ iv = 0 ∧ fv = 0 := by
  rw [packValue_of_fits h]
  constructor
  · intro h0
    obtain ⟨h1, h2⟩ := Nat.add_eq_zero_iff.1 h0
    refine ⟨?_, h2⟩
    simpa using h1
  · rintro ⟨rfl, rfl⟩; simp

theorem pointerField_pack_of_fits (neg : Bool) {iv fv : Nat} (h : fits iv fv) :
    pointerField (pack neg iv fv) = bitLength fv := by
  rw [pointerField_pack]; unfold fits at h; omega

/-- `unpack` undoes `pack` inside the budget (R87). -/
theorem unpack_pack (neg : Bool) {iv fv : Nat} (h : fits iv fv) :
    unpack (pack neg iv fv) =
      { neg := neg && !(decide (iv = 0 ∧ fv = 0)), int := iv, frac := fv } := by
  have hp : min (pointerField (pack neg iv fv)) 26 = bitLength fv := by
    rw [pointerField_pack_of_fits neg h]; unfold fits at h; omega
  have hlt := lt_two_pow_bitLength fv
  have h1 : (unpack (pack neg iv fv)).int = iv := by
    rw [unpack_int, hp, valueField_pack, packValue_of_fits h, Nat.mul_comm,
      Nat.mul_add_div (by positivity), Nat.div_eq_of_lt hlt, add_zero]
  have h2 : (unpack (pack neg iv fv)).frac = fv := by
    rw [unpack_frac, hp, valueField_pack, packValue_of_fits h, Nat.mul_comm, Nat.mul_add_mod, Nat.mod_eq_of_lt hlt]
  have h3 : (unpack (pack neg iv fv)).neg = (neg && !(decide (iv = 0 ∧ fv = 0))) := by
    rw [unpack_neg, signBit_pack]
    congr 1
    rw [Bool.eq_iff_iff]
    simp [packValue_eq_zero_iff h]
    tauto
  exact Logical.ext h3 h1 h2

/-! ### Well-formed words -/

/-- The three checks of R26 in terms of the fields. -/
theorem wordWellFormed_iff (w : Word) :
    wordWellFormed w = true ↔
      pointerField w ≤ 26 ∧ (pointerField w = 0 ∨ (valueField w).testBit (pointerField w - 1) = true) ∧
        (valueField w = 0 → signBit w = false) := by
  have hz : (w.extractLsb' 0 26 != 0) = !decide (valueField w = 0) := by
    by_cases h : w.extractLsb' 0 26 = 0
    · have h' : valueField w = 0 := by rw [valueField, h]; rfl
      rw [h, h']; rfl
    · have h' : valueField w ≠ 0 := fun h0 => h (BitVec.eq_of_toNat_eq h0)
      rw [decide_eq_false h', bne_iff_ne.2 h]; rfl
  have hb : (w.extractLsb' 0 26).getLsbD (pointerField w - 1) = (valueField w).testBit (pointerField w - 1) := rfl
  change (decide (pointerField w ≤ 26) &&
    (pointerField w == 0 || (w.extractLsb' 0 26).getLsbD (pointerField w - 1)) &&
    (w.extractLsb' 0 26 != 0 || !signBit w)) = true ↔ _
  rw [hz, hb]
  generalize pointerField w = p
  generalize valueField w = v
  generalize signBit w = s
  simp only [Bool.and_eq_true, decide_eq_true_eq, Bool.or_eq_true, beq_iff_eq, Bool.not_eq_true', decide_eq_false_iff_not]
  rw [and_assoc, ← imp_iff_not_or]

/-- Bit `p - 1` of the value is 1 exactly when the fraction needs all `p` bits. -/
theorem bitLength_frac_eq_iff {v p : Nat} (hp : 0 < p) :
    bitLength (v % 2 ^ p) = p ↔ v.testBit (p - 1) = true := by
  obtain ⟨k, rfl⟩ : ∃ k, p = k + 1 := ⟨p - 1, by omega⟩
  have hlt : v % 2 ^ (k + 1) < 2 ^ (k + 1) := Nat.mod_lt _ (by positivity)
  have hle := bitLength_le_iff.2 hlt
  have h1 : bitLength (v % 2 ^ (k + 1)) = k + 1 ↔ 2 ^ k ≤ v % 2 ^ (k + 1) := by
    rw [← lt_bitLength_iff]; omega
  rw [h1, Nat.add_sub_cancel, Nat.testBit_eq_decide_div_mod_eq, decide_eq_true_eq, pow_succ, Nat.mod_mul]
  have h3 : v % 2 ^ k < 2 ^ k := Nat.mod_lt _ (by positivity)
  rcases Nat.mod_two_eq_zero_or_one (v / 2 ^ k) with h | h <;> rw [h] <;> omega

/-- For a well-formed word the pointer is the bit length of the fraction (R24, R26). -/
theorem bitLength_frac_of_wellFormed {w : Word} (h : wordWellFormed w = true) :
    bitLength (unpack w).frac = pointerField w := by
  obtain ⟨h1, h2, -⟩ := (wordWellFormed_iff w).1 h
  rw [unpack_frac, min_eq_left h1]
  rcases h2 with h2 | h2
  · rw [h2]; simp [Nat.mod_one]
  · rcases Nat.eq_zero_or_pos (pointerField w) with h0 | h0
    · rw [h0]; simp [Nat.mod_one]
    · exact (bitLength_frac_eq_iff h0).2 h2

/-- Packing the parts of a well-formed word gives the word back (R26, R87). -/
theorem pack_unpack_of_wellFormed {w : Word} (h : wordWellFormed w = true) :
    pack (unpack w).neg (unpack w).int (unpack w).frac = w := by
  obtain ⟨h1, -, h3⟩ := (wordWellFormed_iff w).1 h
  have hb := bitLength_frac_of_wellFormed h
  have hv : packValue (unpack w).int (unpack w).frac = valueField w := by
    rw [packValue_of_fits (fits_unpack w), hb, valueField_split w, min_eq_left h1]
  apply word_ext
  · rw [pointerField_pack_of_fits _ (fits_unpack w), hb]
  · rw [signBit_pack, hv, unpack_neg]
    by_cases h0 : valueField w = 0
    · simp [h0, h3 h0]
    · simp [h0]
  · rw [valueField_pack, hv]

/-- What `pack` makes of a triple that fits is well-formed (R26, R87). -/
theorem wellFormed_pack (neg : Bool) {iv fv : Nat} (h : fits iv fv) : wordWellFormed (pack neg iv fv) = true := by
  rw [wordWellFormed_iff, pointerField_pack_of_fits neg h, valueField_pack, signBit_pack]
  refine ⟨by unfold fits at h; omega, ?_, fun h0 => by simp [h0]⟩
  rcases Nat.eq_zero_or_pos (bitLength fv) with h0 | h0
  · exact .inl h0
  · right
    rw [← bitLength_frac_eq_iff h0, packValue_of_fits h, mul_comm, Nat.mul_add_mod,
      Nat.mod_eq_of_lt (lt_two_pow_bitLength fv)]

/-- `pack(unpack(w))`, the well-formed word with the parts of `w` (R26, R85, R108). -/
def canonicalWord (w : Word) : Word := pack (unpack w).neg (unpack w).int (unpack w).frac

theorem canonicalWord_of_wellFormed {w : Word} (h : wordWellFormed w = true) : canonicalWord w = w :=
  pack_unpack_of_wellFormed h

theorem wellFormed_canonicalWord (w : Word) : wordWellFormed (canonicalWord w) = true :=
  wellFormed_pack _ (fits_unpack w)

/-- Only the sign of a negative zero changes. -/
theorem unpack_canonicalWord (w : Word) :
    unpack (canonicalWord w) = { unpack w with neg := signBit w && !(decide (valueField w = 0)) } := by
  rw [canonicalWord, unpack_pack _ (fits_unpack w), unpack_neg]
  simp only [unpack_eq_zero_iff]

end Sys2Proof.Machine
end

