-- ==== Sys2Proof/Laws/Strings.lean ====
section
/-! SUPPORT. Digit runs, the digit parser, the decimal printer and the string carrier. -/

namespace Sys2Proof.Machine

/-! ### Digits -/

/-- A byte is one of the ten digit characters. -/
abbrev isDigitByte (c : Byte) : Prop := 0x30 ≤ c.toNat ∧ c.toNat ≤ 0x39

theorem isDigit_iff (c : Byte) : isDigit c = true ↔ isDigitByte c := by
  simp [isDigit, isDigitByte]

theorem digitChar_toNat {d : Nat} (h : d < 10) : (digitChar d).toNat = 0x30 + d := by
  have h0 : (0x30 : Byte).toNat = 0x30 := rfl
  simp only [digitChar, BitVec.toNat_add, BitVec.toNat_ofNat, h0]
  omega

/-! ### Numerals -/

theorem numeral_append_singleton (t : List Byte) (c : Byte) :
    numeral (t ++ [c]) = numeral t * 10 + (c.toNat - 0x30) := by
  simp [numeral]

theorem numeral_nil : numeral [] = 0 := rfl

theorem numeral_cons_zero (t : List Byte) : numeral (0x30 :: t) = numeral t := by
  simp [numeral]

theorem numeral_lt_ten_pow (t : List Byte) (h : ∀ c ∈ t, isDigitByte c) : numeral t < 10 ^ t.length := by
  induction t using List.reverseRecOn with
  | nil => simp [numeral_nil]
  | append_singleton t c ih =>
    have h1 := ih fun c hc => h c (by simp [hc])
    have h2 := h c (by simp)
    rw [numeral_append_singleton, List.length_append, List.length_singleton, pow_succ]
    omega

/-! ### The digit parser -/

theorem numeral_from_le (v : Nat) (t : List Byte) :
    v ≤ t.foldl (fun v c => v * 10 + (c.toNat - 0x30)) v := by
  induction t generalizing v with
  | nil => exact le_rfl
  | cons c t ih =>
    have := ih (v * 10 + (c.toNat - 0x30))
    rw [List.foldl_cons]
    omega

/-- One turn of the parser's loop, with the parameters at their values. -/
theorem parseDigits_cons (v : Nat) (c : Byte) (t : List Byte) :
    parseDigits v (c :: t) =
      if isDigit c then
        if v * 10 + (c.toNat - 0x30) < 2 ^ 32 then parseDigits (v * 10 + (c.toNat - 0x30)) t else none
      else none := rfl

/-- The parser's loop accepts exactly digit bytes whose numeral stays below 2^32, and returns the numeral (R78). -/
theorem parseDigits_eq_some_iff {v n : Nat} {t : List Byte} (hv : v < 2 ^ 32) :
    parseDigits v t = some n ↔
      (∀ c ∈ t, isDigitByte c) ∧ t.foldl (fun v c => v * 10 + (c.toNat - 0x30)) v = n ∧ n < 2 ^ 32 := by
  induction t generalizing v with
  | nil =>
    simp only [parseDigits, List.foldl_nil, Option.some.injEq]
    constructor
    · rintro rfl; exact ⟨by simp, rfl, hv⟩
    · exact fun h => h.2.1
  | cons c t ih =>
    have hle := numeral_from_le (v * 10 + (c.toNat - 0x30)) t
    simp only [parseDigits_cons, isDigit_iff, List.forall_mem_cons, List.foldl_cons]
    by_cases hd : isDigitByte c
    · rw [if_pos hd]
      by_cases hlt : v * 10 + (c.toNat - 0x30) < 2 ^ 32
      · rw [if_pos hlt]
        rw [ih hlt]
        exact ⟨fun h => ⟨⟨hd, h.1⟩, h.2⟩, fun h => ⟨h.1.2, h.2⟩⟩
      · rw [if_neg hlt]
        simp only [reduceCtorEq, false_iff, not_and]
        rintro - rfl
        omega
    · rw [if_neg hd]
      simp [hd]

/-- `parse_unsigned` (R78). -/
theorem parseUnsigned_eq_some_iff {t : List Byte} {n : Nat} :
    parseUnsigned t = some n ↔ parsable t ∧ numeral t = n := by
  unfold parseUnsigned
  split
  · next h => simp [h, digitRun]
  · next h =>
    rw [parseDigits_eq_some_iff (by norm_num)]
    unfold parsable digitRun numeral
    constructor
    · rintro ⟨h1, rfl, h3⟩; exact ⟨⟨⟨h, h1⟩, h3⟩, rfl⟩
    · rintro ⟨⟨⟨_, h1⟩, h3⟩, rfl⟩; exact ⟨h1, rfl, h3⟩

/-! ### The printer -/

theorem digitRun_decStr (n : Nat) : digitRun (decStr n) := by
  unfold decStr
  split
  · exact ⟨by simp, by simp⟩
  · next h =>
    refine ⟨?_, ?_⟩
    · rw [decimalDigits_of_pos (Nat.pos_of_ne_zero h)]; simp
    · intro c hc
      obtain ⟨d, hd, rfl⟩ := List.mem_map.1 hc
      have := decimalDigits_lt_ten n d hd
      rw [digitChar_toNat this]; omega

theorem numeral_decimalDigits (n : Nat) : numeral ((decimalDigits n).map digitChar) = n := by
  induction n using Nat.strong_induction_on with
  | _ n ih =>
    rcases Nat.eq_zero_or_pos n with rfl | h
    · simp [numeral_nil]
    · rw [decimalDigits_of_pos h, List.map_append, List.map_singleton, numeral_append_singleton, ih (n / 10) (by omega),
        digitChar_toNat (by omega)]
      omega

/-- What `dec_str` prints reads back as the number (R9). -/
theorem numeral_decStr (n : Nat) : numeral (decStr n) = n := by
  unfold decStr
  split
  · next h => subst h; rfl
  · exact numeral_decimalDigits n

theorem decStr_zero : decStr 0 = [0x30] := rfl

theorem length_decStr (n : Nat) : (decStr n).length = max 1 (decDigits n) := by
  rcases Nat.eq_zero_or_pos n with rfl | h
  · rfl
  · have := decDigits_pos h
    rw [decStr, if_neg h.ne', List.length_map, ← decDigits_eq_length]; omega

theorem head_decimalDigits {n : Nat} (h : 0 < n) : ∃ d t, decimalDigits n = d :: t ∧ 0 < d := by
  induction n using Nat.strong_induction_on with
  | _ n ih =>
    rw [decimalDigits_of_pos h]
    rcases Nat.eq_zero_or_pos (n / 10) with h0 | h0
    · exact ⟨n % 10, [], by simp [h0], by omega⟩
    · obtain ⟨d, t, ht, hd⟩ := ih (n / 10) (by omega) h0
      exact ⟨d, t ++ [n % 10], by simp [ht], hd⟩

/-- `dec_str` prints no leading zero but the single digit of 0 (R83). -/
theorem head_decStr_ne_zero {n : Nat} (h : 0 < n) : (decStr n).head? ≠ some 0x30 := by
  obtain ⟨d, t, ht, hd⟩ := head_decimalDigits h
  have hlt : d < 10 := decimalDigits_lt_ten n d (by simp [ht])
  rw [decStr, if_neg h.ne', ht, List.map_cons, List.head?_cons]
  intro he
  have := congrArg BitVec.toNat (Option.some.inj he)
  rw [digitChar_toNat hlt] at this
  simp at this
  omega

theorem decStr_injective {m n : Nat} (h : decStr m = decStr n) : m = n := by
  rw [← numeral_decStr m, h, numeral_decStr]

theorem parsable_decStr {n : Nat} (h : n < 2 ^ 32) : parsable (decStr n) :=
  ⟨digitRun_decStr n, by rwa [numeral_decStr]⟩

/-! ### The carrier -/

/-- A string put into lanes and taken out again is the string (R56). -/
theorem requestString_lanesOf {s : List Byte} (h : s.length ≤ 32) :
    requestString (BitVec.ofNat 6 s.length) (lanesOf s) = s := by
  have hl : (BitVec.ofNat 6 s.length).toNat = s.length := by
    rw [BitVec.toNat_ofNat]; omega
  rw [requestString, hl]
  apply List.ext_getElem
  · simp; omega
  · intro i h1 h2
    simp [lanesOf, h2]

theorem lanesOf_getElem (s : List Byte) (i : Nat) (h : i < 32) : (lanesOf s)[i] = s.getD i 0 := by
  simp [lanesOf]

theorem lanesOf_beyond {s : List Byte} {i : Nat} (h : i < 32) (hs : s.length ≤ i) : (lanesOf s)[i] = 0 := by
  rw [lanesOf_getElem]; simp [hs]

theorem requestString_congr {len : StrLen} {x y : Lanes} (h : ∀ i : Fin 32, i.val < len.toNat → x[i] = y[i]) :
    requestString len x = requestString len y := by
  unfold requestString
  apply List.ext_getElem
  · simp
  · intro i h1 h2
    have hi : i < len.toNat ∧ i < 32 := by simpa using h1
    simpa using h ⟨i, hi.2⟩ hi.1

theorem length_requestString {len : StrLen} {str : Lanes} (h : len.toNat ≤ 32) :
    (requestString len str).length = len.toNat := by
  simp [requestString, h]

end Sys2Proof.Machine
end

