-- ==== Sys2Proof/Laws/Codec.lean ====
section
/-! SUPPORT. ENCODE on strings of the grammar and off it, and what DECODE prints. -/

namespace Sys2Proof.Machine

theorem dot_not_mem_digits {t : List Byte} (h : ∀ c ∈ t, isDigitByte c) : (0x2E : Byte) ∉ t := fun hm => by
  have := (h _ hm).1
  revert this; decide

theorem minus_not_mem_digits {t : List Byte} (h : ∀ c ∈ t, isDigitByte c) : (0x2D : Byte) ∉ t := fun hm => by
  have := (h _ hm).1
  revert this; decide

/-! ### Splitting -/

theorem splitAtDot_of_not_mem {s : List Byte} (h : (0x2E : Byte) ∉ s) : splitAtDot s = (s, [0x30]) := if_neg h

theorem splitAtDot_append {s t : List Byte} (h : (0x2E : Byte) ∉ s) : splitAtDot (s ++ 0x2E :: t) = (s, t) := by
  have hm : (0x2E : Byte) ∈ s ++ 0x2E :: t := by simp
  have hj : (s ++ 0x2E :: t).idxOf (0x2E : Byte) = s.length := by
    rw [List.idxOf_append, if_neg h]; simp
  have : splitAtDot (s ++ 0x2E :: t) =
      ((s ++ 0x2E :: t).take ((s ++ 0x2E :: t).idxOf (0x2E : Byte)),
        (s ++ 0x2E :: t).drop ((s ++ 0x2E :: t).idxOf (0x2E : Byte) + 1)) := if_pos hm
  rw [this, hj]
  simp

/-- The split gives back the string: a dot between the parts, or no dot and the default fraction. -/
theorem splitAtDot_cases (s : List Byte) :
    ((0x2E : Byte) ∉ s ∧ splitAtDot s = (s, [0x30])) ∨
      ∃ x y, (0x2E : Byte) ∉ x ∧ s = x ++ 0x2E :: y ∧ splitAtDot s = (x, y) := by
  by_cases h : (0x2E : Byte) ∈ s
  · obtain ⟨x, y, rfl, hx⟩ := List.eq_append_cons_of_mem h
    exact .inr ⟨x, y, hx, rfl, splitAtDot_append hx⟩
  · exact .inl ⟨h, splitAtDot_of_not_mem h⟩

/-! ### The sign -/

theorem stripSign_cases (s : List Byte) :
    (∃ t, s = 0x2D :: t ∧ stripSign s = (true, t)) ∨ (s.head? ≠ some 0x2D ∧ stripSign s = (false, s)) := by
  cases s with
  | nil => exact .inr ⟨by simp, rfl⟩
  | cons c t =>
    by_cases h : c = 0x2D
    · subst h; exact .inl ⟨t, rfl, rfl⟩
    · exact .inr ⟨by simpa using h, if_neg h⟩

theorem stripSign_spelled {neg : Bool} {int : List Byte} {frac : Option (List Byte)} (h : digitRun int) :
    stripSign (spelled neg int frac) = (neg, spelled false int frac) := by
  obtain ⟨hne, hd⟩ := h
  cases neg with
  | true => simp [spelled, stripSign]
  | false =>
    obtain ⟨c, t, rfl⟩ := List.exists_cons_of_ne_nil hne
    have hc : c ≠ 0x2D := fun he => minus_not_mem_digits hd (by simp [he])
    simp [spelled, stripSign]
    exact hc

/-! ### ENCODE -/

theorem fracNumeral_none : fracNumeral none = 0 := rfl

/-- ENCODE on a string of the grammar: the digits' numerals are packed (R79). -/
theorem encodeString_spelled {neg : Bool} {int : List Byte} {frac : Option (List Byte)}
    (h : acceptedParts int frac) :
    encodeString (spelled neg int frac) = some (pack neg (numeral int) (fracNumeral frac)) := by
  obtain ⟨hi, hf⟩ := h
  have h1 := stripSign_spelled (neg := neg) (frac := frac) hi.1
  have hint : parseUnsigned int = some (numeral int) := parseUnsigned_eq_some_iff.2 ⟨hi, rfl⟩
  have hdot := dot_not_mem_digits hi.1.2
  unfold encodeString
  cases frac with
  | none =>
    have h2 : splitAtDot (spelled false int none) = (int, [0x30]) := by
      simpa [spelled] using splitAtDot_of_not_mem hdot
    have h3 : parseUnsigned [0x30] = some 0 := rfl
    simp only [h1, h2, h3, hint, fracNumeral]
  | some f =>
    have h2 : splitAtDot (spelled false int (some f)) = (int, f) := by
      simpa [spelled] using splitAtDot_append hdot
    have h3 : parseUnsigned f = some (numeral f) := parseUnsigned_eq_some_iff.2 ⟨hf f rfl, rfl⟩
    simp only [h1, h2, h3, hint, fracNumeral]

/-- ENCODE accepts nothing else (R77, R80). -/
theorem encodeString_eq_some {s : List Byte} {w : Word} (h : encodeString s = some w) :
    ∃ neg int frac, s = spelled neg int frac ∧ acceptedParts int frac ∧
      w = pack neg (numeral int) (fracNumeral frac) := by
  have key : ∀ neg t, s = (if neg then [0x2D] else []) ++ t → stripSign s = (neg, t) →
      ∃ int frac, s = spelled neg int frac ∧ acceptedParts int frac := by
    intro neg t hs hst
    rw [encodeString, hst] at h
    rcases splitAtDot_cases t with ⟨hd, hsp⟩ | ⟨x, y, hx, rfl, hsp⟩
    · simp only [hsp] at h
      cases h1 : parseUnsigned t with
      | none => simp [h1] at h
      | some iv =>
        exact ⟨t, none, by simp [hs, spelled], (parseUnsigned_eq_some_iff.1 h1).1, by simp⟩
    · simp only [hsp] at h
      cases h1 : parseUnsigned x with
      | none => simp [h1] at h
      | some iv =>
        cases h2 : parseUnsigned y with
        | none => simp [h1, h2] at h
        | some fv =>
          refine ⟨x, some y, by simp [hs, spelled], (parseUnsigned_eq_some_iff.1 h1).1, ?_⟩
          intro f hf
          obtain rfl : y = f := by simpa using hf
          exact (parseUnsigned_eq_some_iff.1 h2).1
  have key2 : ∃ neg int frac, s = spelled neg int frac ∧ acceptedParts int frac := by
    rcases stripSign_cases s with ⟨t, hs, hst⟩ | ⟨-, hst⟩
    · obtain ⟨i, f, h1, h2⟩ := key true t (by simp [hs]) hst
      exact ⟨true, i, f, h1, h2⟩
    · obtain ⟨i, f, h1, h2⟩ := key false s (by simp) hst
      exact ⟨false, i, f, h1, h2⟩
  obtain ⟨neg, int, frac, rfl, hp⟩ := key2
  refine ⟨neg, int, frac, rfl, hp, ?_⟩
  rw [encodeString_spelled hp] at h
  exact (Option.some.inj h).symm

theorem encodeString_isSome_iff (s : List Byte) : (∃ w, encodeString s = some w) ↔ accepted s := by
  constructor
  · rintro ⟨w, hw⟩
    obtain ⟨n, i, f, h1, h2, -⟩ := encodeString_eq_some hw
    exact ⟨n, i, f, h1, h2⟩
  · rintro ⟨n, i, f, rfl, h2⟩
    exact ⟨_, encodeString_spelled h2⟩

theorem encodeString_eq_none_iff (s : List Byte) : encodeString s = none ↔ ¬ accepted s := by
  rw [← encodeString_isSome_iff]
  cases encodeString s <;> simp

/-- The response of ENCODE, case by case (R79, R80). -/
theorem encodeResponse_of_long {len : StrLen} (h : 32 < len.toNat) (str : Lanes) :
    encodeResponse len str = .condition .illegalRequest := if_pos h

theorem encodeResponse_of_some {len : StrLen} {str : Lanes} {w : Word} (h : len.toNat ≤ 32)
    (hw : encodeString (requestString len str) = some w) : encodeResponse len str = .word w := by
  have : encodeResponse len str = match encodeString (requestString len str) with
    | some w => Response.word w
    | none => .condition .malformedNumber := if_neg (not_lt.2 h)
  rw [this, hw]

theorem encodeResponse_of_none {len : StrLen} {str : Lanes} (h : len.toNat ≤ 32)
    (hw : encodeString (requestString len str) = none) : encodeResponse len str = .condition .malformedNumber := by
  have : encodeResponse len str = match encodeString (requestString len str) with
    | some w => Response.word w
    | none => .condition .malformedNumber := if_neg (not_lt.2 h)
  rw [this, hw]

/-- A word ENCODE answers comes from `pack`. -/
theorem encodeResponse_eq_word {len : StrLen} {str : Lanes} {w : Word} (h : encodeResponse len str = .word w) :
    ∃ neg iv fv, w = pack neg iv fv := by
  rcases Nat.lt_or_ge 32 len.toNat with hl | hl
  · rw [encodeResponse_of_long hl] at h; cases h
  · cases hs : encodeString (requestString len str) with
    | none => rw [encodeResponse_of_none hl hs] at h; cases h
    | some v =>
      rw [encodeResponse_of_some hl hs] at h
      obtain ⟨n, i, f, -, -, rfl⟩ := encodeString_eq_some hs
      cases h
      exact ⟨n, numeral i, fracNumeral f, rfl⟩

/-! ### DECODE -/

/-- DECODE prints the canonical spelling of the parts, with the sign bit as it is found (R82, R83). -/
theorem decodeString_eq (w : Word) :
    decodeString w = canonicalSpelling (signBit w) (unpack w).int (unpack w).frac := by
  simp [decodeString, canonicalSpelling, spelled, unpack_neg]
  rfl

theorem canonicalSpelling_injective {n m : Bool} {i j f g : Nat}
    (h : canonicalSpelling n i f = canonicalSpelling m j g) : n = m ∧ i = j ∧ f = g := by
  have h1 := congrArg stripSign h
  unfold canonicalSpelling at h1
  rw [stripSign_spelled (digitRun_decStr _), stripSign_spelled (digitRun_decStr _), Prod.mk.injEq] at h1
  have h2 := congrArg splitAtDot h1.2
  have e : ∀ i f, spelled false (decStr i) (some (decStr f)) = decStr i ++ 0x2E :: decStr f := by
    intro i f; simp [spelled]
  rw [e, e, splitAtDot_append (dot_not_mem_digits (digitRun_decStr _).2),
    splitAtDot_append (dot_not_mem_digits (digitRun_decStr _).2), Prod.mk.injEq] at h2
  exact ⟨h1.1, decStr_injective h2.1, decStr_injective h2.2⟩

theorem length_canonicalSpelling (n : Bool) (i f : Nat) :
    (canonicalSpelling n i f).length = n.toNat + max 1 (decDigits i) + 1 + max 1 (decDigits f) := by
  unfold canonicalSpelling spelled
  rw [List.length_append, List.length_append, List.length_cons, length_decStr, length_decStr]
  cases n <;> simp <;> omega

/-- The two digit runs DECODE prints have at most 9 digits together (R84). -/
theorem decDigits_add_le (w : Word) : max 1 (decDigits (unpack w).int) + max 1 (decDigits (unpack w).frac) ≤ 9 := by
  have h1 := unpack_int_lt w
  have h2 := unpack_frac_lt w
  have h3 : min (pointerField w) 26 ≤ 26 := min_le_right _ _
  generalize min (pointerField w) 26 = p at *
  generalize (unpack w).int = i at *
  generalize (unpack w).frac = f at *
  have key : ∀ a b : Nat, 2 ^ (26 - p) ≤ 10 ^ a → 2 ^ p ≤ 10 ^ b → 1 ≤ a → 1 ≤ b → a + b ≤ 9 →
      max 1 (decDigits i) + max 1 (decDigits f) ≤ 9 := by
    intro a b ha hb h1a h1b hab
    have := decDigits_le_iff.2 (h1.trans_le ha)
    have := decDigits_le_iff.2 (h2.trans_le hb)
    omega
  interval_cases p
  · exact key 8 1 (by norm_num) (by norm_num) (by norm_num) (by norm_num) (by norm_num)
  · exact key 8 1 (by norm_num) (by norm_num) (by norm_num) (by norm_num) (by norm_num)
  · exact key 8 1 (by norm_num) (by norm_num) (by norm_num) (by norm_num) (by norm_num)
  · exact key 7 1 (by norm_num) (by norm_num) (by norm_num) (by norm_num) (by norm_num)
  · exact key 7 2 (by norm_num) (by norm_num) (by norm_num) (by norm_num) (by norm_num)
  · exact key 7 2 (by norm_num) (by norm_num) (by norm_num) (by norm_num) (by norm_num)
  · exact key 7 2 (by norm_num) (by norm_num) (by norm_num) (by norm_num) (by norm_num)
  · exact key 6 3 (by norm_num) (by norm_num) (by norm_num) (by norm_num) (by norm_num)
  · exact key 6 3 (by norm_num) (by norm_num) (by norm_num) (by norm_num) (by norm_num)
  · exact key 6 3 (by norm_num) (by norm_num) (by norm_num) (by norm_num) (by norm_num)
  · exact key 5 4 (by norm_num) (by norm_num) (by norm_num) (by norm_num) (by norm_num)
  · exact key 5 4 (by norm_num) (by norm_num) (by norm_num) (by norm_num) (by norm_num)
  · exact key 5 4 (by norm_num) (by norm_num) (by norm_num) (by norm_num) (by norm_num)
  · exact key 4 4 (by norm_num) (by norm_num) (by norm_num) (by norm_num) (by norm_num)
  · exact key 4 5 (by norm_num) (by norm_num) (by norm_num) (by norm_num) (by norm_num)
  · exact key 4 5 (by norm_num) (by norm_num) (by norm_num) (by norm_num) (by norm_num)
  · exact key 4 5 (by norm_num) (by norm_num) (by norm_num) (by norm_num) (by norm_num)
  · exact key 3 6 (by norm_num) (by norm_num) (by norm_num) (by norm_num) (by norm_num)
  · exact key 3 6 (by norm_num) (by norm_num) (by norm_num) (by norm_num) (by norm_num)
  · exact key 3 6 (by norm_num) (by norm_num) (by norm_num) (by norm_num) (by norm_num)
  · exact key 2 7 (by norm_num) (by norm_num) (by norm_num) (by norm_num) (by norm_num)
  · exact key 2 7 (by norm_num) (by norm_num) (by norm_num) (by norm_num) (by norm_num)
  · exact key 2 7 (by norm_num) (by norm_num) (by norm_num) (by norm_num) (by norm_num)
  · exact key 1 7 (by norm_num) (by norm_num) (by norm_num) (by norm_num) (by norm_num)
  · exact key 1 8 (by norm_num) (by norm_num) (by norm_num) (by norm_num) (by norm_num)
  · exact key 1 8 (by norm_num) (by norm_num) (by norm_num) (by norm_num) (by norm_num)
  · exact key 1 8 (by norm_num) (by norm_num) (by norm_num) (by norm_num) (by norm_num)

theorem length_decodeString_le (w : Word) : (decodeString w).length ≤ 11 := by
  have := decDigits_add_le w
  have := (signBit w).toNat_le
  rw [decodeString_eq, length_canonicalSpelling]; omega

theorem length_decodeString_ge (w : Word) : 3 ≤ (decodeString w).length := by
  rw [decodeString_eq, length_canonicalSpelling]; omega

/-- The string registers DECODE leaves hold exactly its string (R51, R82). -/
theorem requestString_decode (w : Word) :
    requestString (stringRegs (decodeString w)).len (stringRegs (decodeString w)).str = decodeString w :=
  requestString_lanesOf (by have := length_decodeString_le w; omega)

/-- ENCODE of a canonical spelling packs the numbers (R79). -/
theorem encodeString_canonicalSpelling (n : Bool) {i f : Nat} (hi : i < 2 ^ 32) (hf : f < 2 ^ 32) :
    encodeString (canonicalSpelling n i f) = some (pack n i f) := by
  have := encodeString_spelled (neg := n) (int := decStr i) (frac := some (decStr f))
    ⟨parsable_decStr hi, fun g hg => by cases hg; exact parsable_decStr hf⟩
  rwa [numeral_decStr, fracNumeral, numeral_decStr] at this

theorem lt_of_fits {i f : Nat} (h : fits i f) : i < 2 ^ 26 ∧ f < 2 ^ 26 :=
  ⟨bitLength_le_iff.1 (by unfold fits at h; omega), bitLength_le_iff.1 (by unfold fits at h; omega)⟩

/-- DECODE then ENCODE gives the well-formed word with the same parts (R85). -/
theorem encodeString_decodeString (w : Word) : encodeString (decodeString w) = some (canonicalWord w) := by
  obtain ⟨h1, h2⟩ := lt_of_fits (fits_unpack w)
  rw [decodeString_eq, encodeString_canonicalSpelling _ (by omega) (by omega)]
  rfl

end Sys2Proof.Machine
end

