-- ==== Sys2Proof/Laws/Engine.lean ====
section
/-! SUPPORT. The arithmetic engine: that it computes with the numbers the words denote, exactly, and when the packed word
still denotes the result. -/

namespace Sys2Proof.Machine

/-! ### Scaled integers -/

theorem scaled_neg (w : Word) : (scaled w).neg = signBit w := rfl
theorem scaled_places (w : Word) : (scaled w).places = decDigits (unpack w).frac := rfl
theorem scaled_mag (w : Word) :
    (scaled w).mag = (unpack w).int * 10 ^ decDigits (unpack w).frac + (unpack w).frac := rfl

theorem scaled_places_le (w : Word) : (scaled w).places ≤ 8 := by
  have h := (unpack_frac_lt w).trans_le (Nat.pow_le_pow_right (by norm_num) (min_le_right (pointerField w) 26))
  rw [scaled_places, decDigits_le_iff]
  exact h.trans (by norm_num)

theorem scaled_mag_lt (w : Word) : (scaled w).mag < 2 ^ 26 * 10 ^ 8 := by
  have h1 : (unpack w).int < 2 ^ 26 :=
    (unpack_int_lt w).trans_le (Nat.pow_le_pow_right (by norm_num) (by omega))
  have h2 := lt_ten_pow_decDigits (unpack w).frac
  have h3 : 10 ^ decDigits (unpack w).frac ≤ 10 ^ 8 := Nat.pow_le_pow_right (by norm_num) (scaled_places_le w)
  rw [scaled_mag]
  calc (unpack w).int * 10 ^ decDigits (unpack w).frac + (unpack w).frac
      < ((unpack w).int + 1) * 10 ^ decDigits (unpack w).frac := by rw [add_mul, one_mul]; omega
    _ ≤ 2 ^ 26 * 10 ^ 8 := Nat.mul_le_mul h1 h3

/-- The magnitude is zero exactly when the value field is (R106, R125). -/
theorem scaled_mag_eq_zero_iff (w : Word) : (scaled w).mag = 0 ↔ valueField w = 0 := by
  rw [← unpack_eq_zero_iff, scaled_mag]
  simp

theorem signFactor_ne_zero (n : Bool) : signFactor n ≠ 0 := by cases n <;> simp [signFactor]

theorem abs_signFactor (n : Bool) : |signFactor n| = 1 := by cases n <;> simp [signFactor]

theorem signFactor_xor (m n : Bool) : signFactor (xor m n) = signFactor m * signFactor n := by
  cases m <;> cases n <;> simp [signFactor]

theorem signed_cast (n : Bool) (m : Nat) : ((signed n m : Int) : ℚ) = signFactor n * m := by
  cases n <;> simp [signed, signFactor]

/-- `Val(w) = (-1)^s * n / 10^d` (R101). -/
theorem wordVal_eq (w : Word) : wordVal w = signFactor (signBit w) * ((scaled w).mag / 10 ^ (scaled w).places) := by
  have h : (10 : ℚ) ^ decDigits (unpack w).frac ≠ 0 := by positivity
  rw [wordVal, scaled_mag, scaled_places, unpack_neg]
  push_cast
  field_simp

theorem abs_wordVal (w : Word) : |wordVal w| = (scaled w).mag / 10 ^ (scaled w).places := by
  rw [wordVal_eq, abs_mul, abs_signFactor, one_mul, abs_of_nonneg (by positivity)]

theorem wordVal_eq_zero_iff (w : Word) : wordVal w = 0 ↔ valueField w = 0 := by
  rw [← abs_eq_zero, abs_wordVal, ← scaled_mag_eq_zero_iff]
  have h : (10 : ℚ) ^ (scaled w).places ≠ 0 := by positivity
  simp

/-- The aligned, signed magnitude is the number times `10^D` (R102, R103). -/
theorem alignedTotal_cast {w : Word} {d : Nat} (h : (scaled w).places ≤ d) :
    ((alignedTotal w d : Int) : ℚ) = wordVal w * 10 ^ d := by
  have e : (10 : ℚ) ^ d = 10 ^ (scaled w).places * 10 ^ (d - (scaled w).places) := by
    rw [← pow_add]; congr 1; omega
  have h0 : (10 : ℚ) ^ (scaled w).places ≠ 0 := by positivity
  rw [alignedTotal, signed_cast, wordVal_eq, scaled_neg, e]
  push_cast
  field_simp

/-! ### Engine triples -/

theorem alignedTotal_eq (w : Word) (d : Nat) :
    alignedTotal w d = signed (signBit w) ((scaled w).mag * 10 ^ (d - (scaled w).places)) := rfl

theorem addExact_eq (a b : Word) :
    addExact a b =
      exactOfTotal (alignedTotal a (commonPlaces a b) + alignedTotal b (commonPlaces a b)) (commonPlaces a b) := rfl

theorem subExact_eq (a b : Word) :
    subExact a b =
      exactOfTotal (alignedTotal a (commonPlaces a b) - alignedTotal b (commonPlaces a b)) (commonPlaces a b) := rfl

theorem mulExact_eq (a b : Word) :
    mulExact a b =
      exactOf (xor (signBit a) (signBit b)) ((scaled a).mag * (scaled b).mag) ((scaled a).places + (scaled b).places) := rfl

theorem commonPlaces_eq (a b : Word) : commonPlaces a b = max (scaled a).places (scaled b).places := rfl

/-- Cutting a magnitude at the point changes no value. -/
theorem exactOf_val (n : Bool) (m d : Nat) : (exactOf n m d).val = signFactor n * (m / 10 ^ d) := by
  have h : (10 : ℚ) ^ d ≠ 0 := by positivity
  have e : (m : ℚ) = (m / 10 ^ d : Nat) * 10 ^ d + (m % 10 ^ d : Nat) := by
    rw [mul_comm]; exact_mod_cast (Nat.div_add_mod m (10 ^ d)).symm
  simp only [Exact.val, exactOf]
  conv_rhs => rw [e]
  field_simp

theorem exactOf_frac_lt (n : Bool) (m d : Nat) : (exactOf n m d).frac < 10 ^ (exactOf n m d).places :=
  Nat.mod_lt _ (by positivity)

theorem exactOfTotal_val (t : Int) (d : Nat) : (exactOfTotal t d).val = (t : ℚ) / 10 ^ d := by
  rw [exactOfTotal, exactOf_val, Nat.cast_natAbs, Int.cast_abs]
  rcases lt_or_ge t 0 with h | h
  · have : (t : ℚ) < 0 := by exact_mod_cast h
    rw [abs_of_neg this]; simp [signFactor, h]; ring
  · have : (0 : ℚ) ≤ t := by exact_mod_cast h
    rw [abs_of_nonneg this]; simp [signFactor, not_lt.2 h]

theorem places_le_common_left (a b : Word) : (scaled a).places ≤ commonPlaces a b := le_max_left _ _
theorem places_le_common_right (a b : Word) : (scaled b).places ≤ commonPlaces a b := le_max_right _ _

/-- Before it packs, ADD has the exact sum (R104). -/
theorem addExact_val (a b : Word) : (addExact a b).val = wordVal a + wordVal b := by
  have h : (10 : ℚ) ^ commonPlaces a b ≠ 0 := by positivity
  rw [addExact, exactOfTotal_val, Int.cast_add, alignedTotal_cast (places_le_common_left a b), alignedTotal_cast (places_le_common_right a b)]
  field_simp

/-- Before it packs, SUB has the exact difference (R105). -/
theorem subExact_val (a b : Word) : (subExact a b).val = wordVal a - wordVal b := by
  have h : (10 : ℚ) ^ commonPlaces a b ≠ 0 := by positivity
  rw [subExact, exactOfTotal_val, Int.cast_sub, alignedTotal_cast (places_le_common_left a b), alignedTotal_cast (places_le_common_right a b)]
  field_simp

/-- Before it packs, MUL has the exact product (R120). -/
theorem mulExact_val (a b : Word) : (mulExact a b).val = wordVal a * wordVal b := by
  have h1 : (10 : ℚ) ^ (scaled a).places ≠ 0 := by positivity
  have h2 : (10 : ℚ) ^ (scaled b).places ≠ 0 := by positivity
  rw [mulExact, exactOf_val, crossSign, signFactor_xor, wordVal_eq, wordVal_eq, scaled_neg, scaled_neg, pow_add]
  push_cast
  field_simp

theorem addExact_places (a b : Word) : (addExact a b).places = max (scaled a).places (scaled b).places := rfl
theorem subExact_places (a b : Word) : (subExact a b).places = max (scaled a).places (scaled b).places := rfl
theorem mulExact_places (a b : Word) : (mulExact a b).places = (scaled a).places + (scaled b).places := rfl
theorem addExact_frac_lt (a b : Word) : (addExact a b).frac < 10 ^ (addExact a b).places := exactOf_frac_lt _ _ _
theorem subExact_frac_lt (a b : Word) : (subExact a b).frac < 10 ^ (subExact a b).places := exactOf_frac_lt _ _ _
theorem mulExact_frac_lt (a b : Word) : (mulExact a b).frac < 10 ^ (mulExact a b).places := exactOf_frac_lt _ _ _

/-! ### When the packed word denotes the result -/

/-- A fraction at its own digit count lies below 1. -/
theorem frac_lt_one {f d : Nat} (h : f < 10 ^ d) : (f : ℚ) / 10 ^ d < 1 := by
  rw [div_lt_one (by positivity)]; exact_mod_cast h

/-- An integer part and a fraction below 1 are determined by their sum. -/
theorem int_frac_unique {i j : Nat} {x y : ℚ} (hx : 0 ≤ x) (hx1 : x < 1) (hy : 0 ≤ y) (hy1 : y < 1)
    (h : (i : ℚ) + x = j + y) : i = j ∧ x = y := by
  have h1 : (i : ℚ) < j + 1 := by linarith
  have h2 : (j : ℚ) < i + 1 := by linarith
  have h3 : i < j + 1 := by exact_mod_cast h1
  have h4 : j < i + 1 := by exact_mod_cast h2
  obtain rfl : i = j := by omega
  exact ⟨rfl, by linarith⟩

/-- Two digit runs of the same fraction: same number of places once trailing zeros are counted. -/
theorem frac_eq_iff {f g d : Nat} (hg : 0 < g)
    (h : (f : ℚ) / 10 ^ decDigits f = (g : ℚ) / 10 ^ d) :
    0 < f ∧ decDigits g = d ∧ f * 10 ^ d = g * 10 ^ decDigits f := by
  have hf : 0 < f := by
    rcases Nat.eq_zero_or_pos f with rfl | hf
    · exfalso
      have : (0 : ℚ) < (g : ℚ) / 10 ^ d := by positivity
      simp at h
      rw [← h] at this
      simp at this
    · exact hf
  have hx : f * 10 ^ d = g * 10 ^ decDigits f := by
    rw [div_eq_div_iff (by positivity) (by positivity)] at h
    exact_mod_cast h
  have h1 := congrArg decDigits hx
  rw [decDigits_mul_pow hf, decDigits_mul_pow hg] at h1
  exact ⟨hf, by omega, hx⟩

/-- Where the pointer needs more than 26 bits the stored fraction is never the one meant (R89, R110). -/
theorem no_fit_wide {f g d q : Nat} (hf : 0 < f) (hfq : f < 2 ^ q) (hdf : decDigits g = d)
    (hgf : f < g) (hx : f * 10 ^ d = g * 10 ^ decDigits f) (hmod : f = g % 2 ^ q) : False := by
  have hlt : decDigits f < d := by
    by_contra hge
    have h1 : 10 ^ d ≤ 10 ^ decDigits f := Nat.pow_le_pow_right (by norm_num) (by omega)
    have h2 : f * 10 ^ d < g * 10 ^ decDigits f :=
      lt_of_lt_of_le (Nat.mul_lt_mul_of_pos_right hgf (by positivity)) (Nat.mul_le_mul_left _ h1)
    omega
  obtain ⟨j, rfl⟩ : ∃ j, d = decDigits f + (j + 1) := ⟨d - decDigits f - 1, by omega⟩
  have hg : g = f * 10 ^ (j + 1) := by
    rw [pow_add, ← mul_assoc, mul_right_comm] at hx
    exact (Nat.eq_of_mul_eq_mul_right (by positivity) hx).symm
  have hdvd : 2 ^ q ∣ g - f := by
    have := Nat.div_add_mod g (2 ^ q)
    rw [← hmod] at this
    exact ⟨g / 2 ^ q, by omega⟩
  have hfac : g - f = f * (10 ^ (j + 1) - 1) := by rw [Nat.mul_sub, mul_one, hg]
  rw [hfac] at hdvd
  have hodd : Nat.Coprime (2 ^ q) (10 ^ (j + 1) - 1) := by
    apply Nat.Coprime.pow_left
    rw [Nat.coprime_two_left]
    rw [pow_succ]
    have : 0 < 10 ^ j := by positivity
    exact ⟨10 ^ j * 5 - 1, by omega⟩
  have := Nat.le_of_dvd hf (hodd.dvd_of_dvd_mul_right hdvd)
  omega

/-- The packed word denotes the packed triple exactly when the triple fits the budget and its fraction has no leading zero
(R110, R123, R130). -/
theorem wordVal_pack_iff (neg : Bool) {ri rf d : Nat} (hrf : rf < 10 ^ d) :
    wordVal (pack neg ri rf) = signFactor neg * (ri + rf / 10 ^ d) ↔
      fits ri rf ∧ (rf = 0 ∨ decDigits rf = d) := by
  constructor
  · intro h
    have habs := congrArg abs h
    rw [wordVal, abs_mul, abs_mul, abs_signFactor, abs_signFactor, one_mul, one_mul,
      abs_of_nonneg (by positivity), abs_of_nonneg (by positivity)] at habs
    obtain ⟨hi, hf⟩ := int_frac_unique (by positivity) (frac_lt_one (lt_ten_pow_decDigits _)) (by positivity)
      (frac_lt_one hrf) habs
    rcases Nat.eq_zero_or_pos rf with rfl | hpos
    · refine ⟨?_, .inl rfl⟩
      have hp : pointerField (pack neg ri 0) = 0 := by simp
      rw [unpack_int, hp, valueField_pack, packValue_eq] at hi
      simp at hi
      unfold fits
      rw [bitLength_zero, add_zero, bitLength_le_iff]
      omega
    · obtain ⟨hfpos, hdd, hx⟩ := frac_eq_iff hpos hf
      refine ⟨?_, .inr hdd⟩
      by_contra hnf
      rcases Nat.lt_or_ge 26 (bitLength rf) with hp | hp
      · have hge : 2 ^ 26 ≤ rf := lt_bitLength_iff.1 hp
        have hq : min (pointerField (pack neg ri rf)) 26 ≤ 26 := min_le_right _ _
        have hflt := unpack_frac_lt (pack neg ri rf)
        have hfr : (unpack (pack neg ri rf)).frac = rf % 2 ^ min (pointerField (pack neg ri rf)) 26 := by
          rw [unpack_frac, valueField_pack, packValue_eq]
          rw [Nat.mod_mod_of_dvd _ (pow_dvd_pow 2 hq)]
          have : 2 ^ min (pointerField (pack neg ri rf)) 26 ∣ ri * 2 ^ bitLength rf :=
            Dvd.dvd.mul_left (pow_dvd_pow 2 (by omega)) _
          rw [Nat.add_mod, Nat.mod_eq_zero_of_dvd this, zero_add, Nat.mod_mod]
        have hlt26 : (unpack (pack neg ri rf)).frac < rf :=
          lt_of_lt_of_le (hflt.trans_le (Nat.pow_le_pow_right (by norm_num) hq)) hge
        exact no_fit_wide hfpos hflt hdd hlt26 hx hfr
      · have hpp : pointerField (pack neg ri rf) = bitLength rf := by rw [pointerField_pack]; omega
        rw [unpack_int, hpp, min_eq_left hp, valueField_pack, packValue_eq] at hi
        have hlt := lt_two_pow_bitLength rf
        have hle : 2 ^ 26 = 2 ^ bitLength rf * 2 ^ (26 - bitLength rf) := by rw [← pow_add]; congr 1; omega
        have hdiv : (ri * 2 ^ bitLength rf + rf) % 2 ^ 26 / 2 ^ bitLength rf = ri % 2 ^ (26 - bitLength rf) := by
          rw [hle, Nat.mod_mul_right_div_self, mul_comm ri, Nat.mul_add_div (by positivity), Nat.div_eq_of_lt hlt, add_zero]
        rw [hdiv] at hi
        apply hnf
        have : ri < 2 ^ (26 - bitLength rf) := by rw [← hi]; exact Nat.mod_lt _ (by positivity)
        have := bitLength_le_iff.2 this
        unfold fits; omega
  · rintro ⟨hfit, hdd⟩
    rw [wordVal, unpack_pack neg hfit]
    simp only
    have e : (rf : ℚ) / 10 ^ decDigits rf = rf / 10 ^ d := by
      rcases hdd with rfl | hdd
      · simp
      · rw [hdd]
    rw [e]
    by_cases h0 : ri = 0 ∧ rf = 0
    · obtain ⟨rfl, rfl⟩ := h0; simp
    · simp [h0]

/-- `wordVal_pack_iff` for an engine triple. -/
theorem wordVal_renormalize_iff {x : Exact} (h : x.frac < 10 ^ x.places) :
    wordVal (renormalize x) = x.val ↔ fits x.int x.frac ∧ x.fullFraction :=
  wordVal_pack_iff x.neg h

/-! ### Only the parts of an operand count -/

theorem scaled_congr {w v : Word} (h : unpack w = unpack v) : scaled w = scaled v := by
  unfold scaled; rw [h]

/-- The packed zero does not depend on the sign asked for. -/
theorem pack_zero (neg : Bool) : pack neg 0 0 = 0 := by cases neg <;> decide

theorem renormalize_exactOf_zero (neg : Bool) (d : Nat) : renormalize (exactOf neg 0 d) = 0 := by
  simp [renormalize, exactOf, pack_zero]

/-- The sign asked for matters only where the packed value is not 0. -/
theorem pack_sign_congr {n m : Bool} {i f : Nat} (h : ¬(i = 0 ∧ f = 0) → n = m) : pack n i f = pack m i f := by
  by_cases h0 : i = 0 ∧ f = 0
  · rw [h0.1, h0.2, pack_zero, pack_zero]
  · rw [h h0]

/-- Cutting the scaled integer at its own digit count gives the parts back. -/
theorem scaled_mag_split (w : Word) :
    (scaled w).mag / 10 ^ (scaled w).places = (unpack w).int ∧
      (scaled w).mag % 10 ^ (scaled w).places = (unpack w).frac := by
  have h := lt_ten_pow_decDigits (unpack w).frac
  rw [scaled_mag, scaled_places, mul_comm]
  exact ⟨by rw [Nat.mul_add_div (by positivity), Nat.div_eq_of_lt h, add_zero],
    by rw [Nat.mul_add_mod, Nat.mod_eq_of_lt h]⟩

theorem signed_zero (n : Bool) : signed n 0 = 0 := by cases n <;> rfl

theorem natAbs_signed (n : Bool) (m : Nat) : (signed n m).natAbs = m := by cases n <;> simp [signed]

theorem signed_neg_iff {n : Bool} {m : Nat} (h : m ≠ 0) : decide (signed n m < 0) = n := by
  cases n <;> simp [signed]; omega

/-! ### NEG -/

theorem negWord_of_zero {w : Word} (h : valueField w = 0) : negWord w = w := if_pos h
theorem negWord_of_ne_zero {w : Word} (h : valueField w ≠ 0) : negWord w = w ^^^ 0x04000000 := if_neg h

theorem getLsbD_signMask (i : Nat) : (0x04000000 : Word).getLsbD i = decide (i = 26) := by
  have : (0x04000000 : Word) = BitVec.twoPow 32 26 := by decide
  rw [this, BitVec.getLsbD_twoPow, Bool.eq_iff_iff]
  simp
  omega

/-- Flipping bit 26 changes the sign and no other field (R140). -/
theorem fields_flipSign (w : Word) :
    valueField (w ^^^ 0x04000000) = valueField w ∧ pointerField (w ^^^ 0x04000000) = pointerField w ∧
      signBit (w ^^^ 0x04000000) = !signBit w := by
  refine ⟨?_, ?_, ?_⟩
  · unfold valueField
    congr 1
    apply BitVec.eq_of_getLsbD_eq
    intro i hi
    rw [BitVec.getLsbD_extractLsb', BitVec.getLsbD_extractLsb', BitVec.getLsbD_xor, getLsbD_signMask]
    have : decide (0 + i = 26) = false := decide_eq_false (by omega)
    rw [this, Bool.xor_false]
  · unfold pointerField
    congr 1
    apply BitVec.eq_of_getLsbD_eq
    intro i hi
    rw [BitVec.getLsbD_extractLsb', BitVec.getLsbD_extractLsb', BitVec.getLsbD_xor, getLsbD_signMask]
    have : decide (27 + i = 26) = false := decide_eq_false (by omega)
    rw [this, Bool.xor_false]
  · rw [signBit_eq_getLsbD, signBit_eq_getLsbD, BitVec.getLsbD_xor, getLsbD_signMask]
    simp

theorem valueField_negWord (w : Word) : valueField (negWord w) = valueField w := by
  by_cases h : valueField w = 0
  · rw [negWord_of_zero h]
  · rw [negWord_of_ne_zero h, (fields_flipSign w).1]

theorem pointerField_negWord (w : Word) : pointerField (negWord w) = pointerField w := by
  by_cases h : valueField w = 0
  · rw [negWord_of_zero h]
  · rw [negWord_of_ne_zero h, (fields_flipSign w).2.1]

theorem signBit_negWord (w : Word) : signBit (negWord w) = if valueField w = 0 then signBit w else !signBit w := by
  by_cases h : valueField w = 0
  · rw [negWord_of_zero h, if_pos h]
  · rw [negWord_of_ne_zero h, (fields_flipSign w).2.2, if_neg h]

theorem unpack_negWord_int (w : Word) : (unpack (negWord w)).int = (unpack w).int := by
  rw [unpack_int, unpack_int, valueField_negWord, pointerField_negWord]

theorem unpack_negWord_frac (w : Word) : (unpack (negWord w)).frac = (unpack w).frac := by
  rw [unpack_frac, unpack_frac, valueField_negWord, pointerField_negWord]

theorem scaled_negWord_mag (w : Word) : (scaled (negWord w)).mag = (scaled w).mag := by
  rw [scaled_mag, scaled_mag, unpack_negWord_int, unpack_negWord_frac]

theorem scaled_negWord_places (w : Word) : (scaled (negWord w)).places = (scaled w).places := by
  rw [scaled_places, scaled_places, unpack_negWord_frac]

/-- NEG negates the aligned total (R141, R142). -/
theorem alignedTotal_negWord (w : Word) (d : Nat) : alignedTotal (negWord w) d = -alignedTotal w d := by
  rw [alignedTotal_eq, alignedTotal_eq, scaled_negWord_mag, scaled_negWord_places, signBit_negWord]
  by_cases h : valueField w = 0
  · rw [if_pos h, (scaled_mag_eq_zero_iff w).2 h, zero_mul, signed_zero, neg_zero]
  · rw [if_neg h]
    cases signBit w <;> simp [signed]

end Sys2Proof.Machine
end

