-- ==== Sys2Proof/Laws/State.lean ====
section
/-! SUPPORT. What each operation over the response registers writes and what it leaves, field by field; later proofs use
these and do not unfold a record update. -/

namespace Sys2Proof.Machine

variable (s : State) (w : Word) (str : List Byte) (c : Condition) (x : HostInput)

@[simp] theorem writeWord_rsp : (s.writeWord w).rsp = wordRegs w := rfl
@[simp] theorem writeWord_inputs : (s.writeWord w).inputs = s.inputs := rfl
@[simp] theorem writeString_rsp : (s.writeString str).rsp = stringRegs str := rfl
@[simp] theorem writeString_inputs : (s.writeString str).inputs = s.inputs := rfl
@[simp] theorem raise_rsp : (s.raise c).rsp = conditionRegs (conditionCode c) := rfl
@[simp] theorem raise_inputs : (s.raise c).inputs = s.inputs := rfl
@[simp] theorem pulseReset_rsp (cut : Option Request) (away : List Request) :
    (s.pulseReset cut away).rsp = RspRegs.reset := rfl
@[simp] theorem pulseReset_inputs (cut : Option Request) (away : List Request) :
    (s.pulseReset cut away).inputs = s.inputs := rfl
@[simp] theorem idle_eq : s.idle = s := rfl
@[simp] theorem present_rsp : (s.present x).rsp = s.rsp := rfl
@[simp] theorem present_inputs : (s.present x).inputs = x :: s.inputs := rfl

@[simp] theorem wordRegs_valid : (wordRegs w).valid = true := rfl
@[simp] theorem wordRegs_status : (wordRegs w).status = 0 := rfl
@[simp] theorem wordRegs_word : (wordRegs w).word = w := rfl
@[simp] theorem wordRegs_len : (wordRegs w).len = 0 := rfl
@[simp] theorem wordRegs_str : (wordRegs w).str = Lanes.zero := rfl
@[simp] theorem stringRegs_valid : (stringRegs str).valid = true := rfl
@[simp] theorem stringRegs_status : (stringRegs str).status = 0 := rfl
@[simp] theorem stringRegs_word : (stringRegs str).word = 0 := rfl
@[simp] theorem stringRegs_len : (stringRegs str).len = BitVec.ofNat 6 str.length := rfl
@[simp] theorem stringRegs_str : (stringRegs str).str = lanesOf str := rfl
@[simp] theorem conditionRegs_valid (k : StatusCode) : (conditionRegs k).valid = true := rfl
@[simp] theorem conditionRegs_status (k : StatusCode) : (conditionRegs k).status = k := rfl
@[simp] theorem conditionRegs_word (k : StatusCode) : (conditionRegs k).word = 0 := rfl
@[simp] theorem conditionRegs_len (k : StatusCode) : (conditionRegs k).len = 0 := rfl
@[simp] theorem conditionRegs_str (k : StatusCode) : (conditionRegs k).str = Lanes.zero := rfl

/-- The registers a response leaves. -/
def Response.regs : Response → RspRegs
  | .word w => wordRegs w
  | .string str => stringRegs str
  | .condition c => conditionRegs (conditionCode c)

/-- The end of a transaction writes all response registers and nothing else (R51, R60). -/
theorem respond_eq (r : Response) : s.respond r = { s with rsp := r.regs } := by cases r <;> rfl

@[simp] theorem respond_rsp (r : Response) : (s.respond r).rsp = r.regs := by rw [respond_eq]
@[simp] theorem respond_inputs (r : Response) : (s.respond r).inputs = s.inputs := by rw [respond_eq]

@[simp] theorem zeroLanes_getElem (i : Nat) (h : i < 32) : (Lanes.zero)[i] = 0 := by simp [Lanes.zero]

end Sys2Proof.Machine
end

