-- ==== Sys2Proof/Laws/Step.lean ====
section
/-! SUPPORT. What an operation, a transaction and a step can do, said once. -/

namespace Sys2Proof.Machine

/-- The response of an operation, from its operands alone (R31). -/
def responseOf : Instr → Response
  | .bitlen a => .word (bitlenWord a)
  | .encode len str => encodeResponse len str
  | .decode a => .string (decodeString a)
  | .add a b => .word (addWord a b)
  | .sub a b => .word (subWord a b)
  | .mul a b => .word (mulWord a b)
  | .div a b => divResponse a b
  | .neg a => .word (negWord a)

/-- Every operation answers a next state: its response written over the response registers. -/
theorem exec_eq (i : Instr) (s : State) : exec i s = .next { s with rsp := (responseOf i).regs } := by
  cases i <;> simp only [exec, execBitlen, execEncode, execDecode, execAdd, execSub, execMul, execDiv, execNeg, respond_eq] <;> rfl

theorem answer_eq (i : Instr) : answer i = (responseOf i).regs := by
  unfold answer; rw [exec_eq]

/-- The response of a request: of the operation it names, or IllegalRequest (R54). -/
def requestResponse (r : Request) : Response :=
  match decode r with
  | .instr i => responseOf i
  | .reservedOp _ => .condition .illegalRequest

/-- Every transaction answers a next state in which only the response registers changed (R157). -/
theorem transact_eq (r : Request) (s : State) : transact r s = .next { s with rsp := (requestResponse r).regs } := by
  unfold transact requestResponse
  cases decode r with
  | instr i => exact exec_eq i s
  | reservedOp op => rfl

/-- The three things a step can be. -/
theorem step_cases (s : State) :
    (s.inputs = [] ∧ step s = .next s) ∨
    (∃ r rest, s.inputs = .request r :: rest ∧
      step s = .next { rsp := (requestResponse r).regs, inputs := rest }) ∨
    (∃ cut away rest, s.inputs = .reset cut away :: rest ∧
      step s = .next { rsp := RspRegs.reset, inputs := rest }) := by
  unfold step
  rcases h : s.inputs with _ | ⟨_ | _, rest⟩
  · exact .inl ⟨rfl, rfl⟩
  · next r => exact .inr (.inl ⟨r, rest, rfl, by simp [transact_eq]⟩)
  · next cut away => exact .inr (.inr ⟨cut, away, rest, rfl, rfl⟩)

theorem step_request {s : State} {r : Request} {rest : List HostInput} (h : s.inputs = .request r :: rest) :
    step s = transact r { s with inputs := rest } := by
  simp [step, h]

theorem step_reset {s : State} {cut : Option Request} {away : List Request} {rest : List HostInput}
    (h : s.inputs = .reset cut away :: rest) : step s = .next { rsp := RspRegs.reset, inputs := rest } := by
  simp [step, h, State.pulseReset]

theorem step_idle {s : State} (h : s.inputs = []) : step s = .next s := by
  simp [step, h]

theorem core_run_succ (M : Host.Core) (n : Nat) (s t : M.State) (h : M.step s = .next t) :
    M.run (n + 1) s = M.run n t := by
  rw [Host.Core.run, h]

/-- A run whose first step answers a next state goes on from it. -/
theorem run_succ_of_next {n : Nat} {s t : State} (h : step s = .next t) :
    Sys2Proof.core.run (n + 1) s = Sys2Proof.core.run n t := core_run_succ Sys2Proof.core n s t h

/-- A transaction on a decoded request is `exec` (R52). -/
theorem transact_of_decode {r : Request} {i : Instr} (h : decode r = .instr i) (s : State) : transact r s = exec i s := by
  rw [transact, h]

/-! ### The decoder by operation code -/

theorem decode_one {r : Request} (h : r.op = 0x1) : decode r = .instr (.bitlen r.a) := by simp [decode, h]
theorem decode_two {r : Request} (h : r.op = 0x2) : decode r = .instr (.encode r.len r.str) := by simp [decode, h]
theorem decode_three {r : Request} (h : r.op = 0x3) : decode r = .instr (.decode r.a) := by simp [decode, h]
theorem decode_four {r : Request} (h : r.op = 0x4) : decode r = .instr (.add r.a r.b) := by simp [decode, h]
theorem decode_five {r : Request} (h : r.op = 0x5) : decode r = .instr (.sub r.a r.b) := by simp [decode, h]
theorem decode_six {r : Request} (h : r.op = 0x6) : decode r = .instr (.mul r.a r.b) := by simp [decode, h]
theorem decode_seven {r : Request} (h : r.op = 0x7) : decode r = .instr (.div r.a r.b) := by simp [decode, h]
theorem decode_eight {r : Request} (h : r.op = 0x8) : decode r = .instr (.neg r.a) := by simp [decode, h]

theorem decode_reserved {r : Request} (h : r.op = 0 ∨ 9 ≤ r.op.toNat) : decode r = .reservedOp r.op := by
  obtain ⟨op, a, b, len, str⟩ := r
  simp only at h
  revert h
  revert op
  intro op
  have key : ∀ op : OpCode, (op = 0 ∨ 9 ≤ op.toNat) →
      op ≠ 1 ∧ op ≠ 2 ∧ op ≠ 3 ∧ op ≠ 4 ∧ op ≠ 5 ∧ op ≠ 6 ∧ op ≠ 7 ∧ op ≠ 8 := by decide
  intro h
  obtain ⟨h1, h2, h3, h4, h5, h6, h7, h8⟩ := key op h
  unfold decode
  split <;> first | rfl | (exfalso; simp_all)

/-- Every code is one of the eight operations or reserved (R52, R54). -/
theorem opCode_cases (op : OpCode) :
    op = 1 ∨ op = 2 ∨ op = 3 ∨ op = 4 ∨ op = 5 ∨ op = 6 ∨ op = 7 ∨ op = 8 ∨ (op = 0 ∨ 9 ≤ op.toNat) := by
  revert op; decide

end Sys2Proof.Machine
end

