-- ==== Sys2Proof/Laws/Answers.lean ====
section
/-! SUPPORT. `answer` for each operation, and what repacking a word (`canonicalWord`) leaves as it was. -/

namespace Sys2Proof.Machine

theorem answer_bitlen (a : Word) : answer (.bitlen a) = wordRegs (bitlenWord a) := answer_eq _
theorem answer_encode (len : StrLen) (str : Lanes) : answer (.encode len str) = (encodeResponse len str).regs := answer_eq _
theorem answer_decode (a : Word) : answer (.decode a) = stringRegs (decodeString a) := answer_eq _
theorem answer_add (a b : Word) : answer (.add a b) = wordRegs (addWord a b) := answer_eq _
theorem answer_sub (a b : Word) : answer (.sub a b) = wordRegs (subWord a b) := answer_eq _
theorem answer_mul (a b : Word) : answer (.mul a b) = wordRegs (mulWord a b) := answer_eq _
theorem answer_div (a b : Word) : answer (.div a b) = (divResponse a b).regs := answer_eq _
theorem answer_neg (a : Word) : answer (.neg a) = wordRegs (negWord a) := answer_eq _

/-- Whatever the response, `rsp.valid` is set (R60). -/
theorem regs_valid (x : Response) : x.regs.valid = true := by cases x <;> rfl

theorem valueField_testBit (w : Word) (i : Nat) :
    (valueField w).testBit i = (decide (i < 26) && w.getLsbD i) := by
  rw [valueField_eq, Nat.testBit_mod_two_pow, BitVec.getLsbD]

/-! ### Repacked words -/

theorem signBit_canonical (w : Word) : signBit (canonicalWord w) = (signBit w && !(decide (valueField w = 0))) := by
  rw [← unpack_neg, unpack_canonicalWord]

theorem int_canonical (w : Word) : (unpack (canonicalWord w)).int = (unpack w).int := by rw [unpack_canonicalWord]

theorem frac_canonical (w : Word) : (unpack (canonicalWord w)).frac = (unpack w).frac := by rw [unpack_canonicalWord]

theorem mag_canonical (w : Word) : (scaled (canonicalWord w)).mag = (scaled w).mag := by
  rw [scaled_mag, scaled_mag, int_canonical, frac_canonical]

theorem places_canonical (w : Word) : (scaled (canonicalWord w)).places = (scaled w).places := by
  rw [scaled_places, scaled_places, frac_canonical]

theorem valueField_canonical (w : Word) : valueField (canonicalWord w) = 0 ↔ valueField w = 0 := by
  rw [← scaled_mag_eq_zero_iff, mag_canonical, scaled_mag_eq_zero_iff]

/-- A negative zero and the zero it repacks to have the same aligned total. -/
theorem alignedTotal_canonical (w : Word) (d : Nat) : alignedTotal (canonicalWord w) d = alignedTotal w d := by
  rw [alignedTotal_eq, alignedTotal_eq, mag_canonical, places_canonical, signBit_canonical]
  by_cases h : valueField w = 0
  · rw [(scaled_mag_eq_zero_iff w).2 h, zero_mul, signed_zero, signed_zero]
  · simp [h]

theorem commonPlaces_canonical (a b : Word) : commonPlaces (canonicalWord a) (canonicalWord b) = commonPlaces a b := by
  rw [commonPlaces_eq, commonPlaces_eq, places_canonical, places_canonical]

/-- Repacking keeps the sign of a word that is not zero. -/
theorem signBit_canonical_of_mag {w : Word} (h : (scaled w).mag ≠ 0) : signBit (canonicalWord w) = signBit w := by
  have : valueField w ≠ 0 := fun h0 => h ((scaled_mag_eq_zero_iff w).2 h0)
  rw [signBit_canonical]; simp [this]

/-- The sign asked for matters only where the magnitude is not 0. -/
theorem renormalize_congr {n n' : Bool} {m d : Nat} (h : m ≠ 0 → n = n') :
    renormalize (exactOf n m d) = renormalize (exactOf n' m d) :=
  pack_sign_congr fun hne => h fun h0 => hne ⟨by rw [h0]; exact Nat.zero_div _, by rw [h0]; exact Nat.zero_mod _⟩

end Sys2Proof.Machine
end

