-- ==== Sys2Proof/Laws/Division.lean ====
section
/-! SUPPORT. DIV: the zero test, which quotients terminate, and that the digits it gives are the fewest. -/

namespace Sys2Proof.Machine

/-- The reduced numerator of R124. -/
def reducedNum (a b : Word) : Nat := quotientNum a b / Nat.gcd (quotientNum a b) (quotientDen a b)

/-- The reduced denominator of R124. -/
def reducedDen (a b : Word) : Nat := quotientDen a b / Nat.gcd (quotientNum a b) (quotientDen a b)

/-- The number of fractional digits of R124. -/
def divPlaces (a b : Word) : Nat := max (exponentOf 2 (reducedDen a b)) (exponentOf 5 (reducedDen a b))

theorem divExact_of_zero {b : Word} (h : valueField b = 0) (a : Word) : divExact a b = .error .divisionByZero :=
  if_pos ((scaled_mag_eq_zero_iff b).2 h)

/-- The two cases of a non-zero divisor, in the reduced fraction. -/
theorem divExact_of_ne_zero {b : Word} (h : valueField b ≠ 0) (a : Word) :
    divExact a b =
      if reducedDen a b ≠ 2 ^ exponentOf 2 (reducedDen a b) * 5 ^ exponentOf 5 (reducedDen a b) then
        .error .inexactQuotient
      else
        .ok (exactOf (crossSign a b) (reducedNum a b * 10 ^ divPlaces a b / reducedDen a b) (divPlaces a b)) :=
  if_neg fun h0 => h ((scaled_mag_eq_zero_iff b).1 h0)

section NonZero

variable {a b : Word} (hb : valueField b ≠ 0)

include hb

theorem quotientDen_pos : 0 < quotientDen a b := by
  have : (scaled b).mag ≠ 0 := fun h0 => hb ((scaled_mag_eq_zero_iff b).1 h0)
  unfold quotientDen
  positivity

theorem gcd_pos : 0 < Nat.gcd (quotientNum a b) (quotientDen a b) := Nat.gcd_pos_of_pos_right _ (quotientDen_pos hb)

theorem reducedDen_pos : 0 < reducedDen a b :=
  Nat.div_pos (Nat.le_of_dvd (quotientDen_pos hb) (Nat.gcd_dvd_right _ _)) (gcd_pos hb)

theorem reduced_coprime : Nat.Coprime (reducedNum a b) (reducedDen a b) := Nat.coprime_div_gcd_div_gcd (gcd_pos hb)

/-- The quotient of the magnitudes is the reduced fraction. -/
theorem abs_quotient_eq : |wordVal a| / |wordVal b| = (reducedNum a b : ℚ) / reducedDen a b := by
  have hd : (quotientDen a b : ℚ) ≠ 0 := by exact_mod_cast (quotientDen_pos hb).ne'
  have h1 : |wordVal a| / |wordVal b| = (quotientNum a b : ℚ) / quotientDen a b := by
    have h2 : ((scaled b).mag : ℚ) ≠ 0 := by
      exact_mod_cast fun h0 => hb ((scaled_mag_eq_zero_iff b).1 h0)
    have h3 : (10 : ℚ) ^ (scaled a).places ≠ 0 := by positivity
    have h4 : (10 : ℚ) ^ (scaled b).places ≠ 0 := by positivity
    rw [abs_wordVal, abs_wordVal, quotientNum, quotientDen]
    push_cast
    field_simp
  have hg : ((Nat.gcd (quotientNum a b) (quotientDen a b) : Nat) : ℚ) ≠ 0 := by exact_mod_cast (gcd_pos hb).ne'
  rw [h1, reducedNum, reducedDen, Nat.cast_div (Nat.gcd_dvd_left _ _) hg, Nat.cast_div (Nat.gcd_dvd_right _ _) hg]
  field_simp

theorem quotientIs_iff {m k : Nat} : quotientIs a b m k ↔ reducedNum a b * 10 ^ k = m * reducedDen a b := by
  have hd : (reducedDen a b : ℚ) ≠ 0 := by exact_mod_cast (reducedDen_pos hb).ne'
  unfold quotientIs
  rw [abs_quotient_eq hb, div_eq_div_iff hd (by positivity)]
  exact_mod_cast Iff.rfl

/-- `k` digits hold the quotient exactly when the reduced denominator divides `10^k` (R126). -/
theorem exists_quotientIs_iff {k : Nat} : (∃ m, quotientIs a b m k) ↔ reducedDen a b ∣ 10 ^ k := by
  simp only [quotientIs_iff hb]
  constructor
  · rintro ⟨m, hm⟩
    exact (reduced_coprime hb).symm.dvd_of_dvd_mul_left ⟨m, by rw [hm, mul_comm]⟩
  · rintro ⟨c, hc⟩
    exact ⟨reducedNum a b * c, by rw [hc]; ring⟩

/-- The digits DIV gives hold the quotient, and no fewer do, when any number of digits does (R126, R128). -/
theorem exists_quotientIs_iff_places {k : Nat} :
    (∃ m, quotientIs a b m k) ↔
      reducedDen a b = 2 ^ exponentOf 2 (reducedDen a b) * 5 ^ exponentOf 5 (reducedDen a b) ∧ divPlaces a b ≤ k := by
  rw [exists_quotientIs_iff hb, dvd_ten_pow_iff (reducedDen_pos hb)]; rfl

theorem terminates_iff :
    terminates a b ↔ reducedDen a b = 2 ^ exponentOf 2 (reducedDen a b) * 5 ^ exponentOf 5 (reducedDen a b) := by
  unfold terminates
  rw [exists_comm]
  simp only [exists_quotientIs_iff_places hb]
  exact ⟨fun ⟨_, h, _⟩ => h, fun h => ⟨_, h, le_rfl⟩⟩

/-- A quotient that no number of digits holds raises InexactQuotient (R127). -/
theorem divExact_of_not_terminates (h : ¬ terminates a b) : divExact a b = .error .inexactQuotient := by
  rw [divExact_of_ne_zero hb, if_pos fun h0 => h ((terminates_iff hb).2 h0)]

/-- A quotient that `k` digits hold and no fewer is the triple DIV packs (R124, R126). -/
theorem divExact_of_fewest {m k : Nat} (h : quotientIs a b m k) (hk : ∀ j < k, ¬ ∃ n, quotientIs a b n j) :
    divExact a b = .ok (exactOf (crossSign a b) m k) := by
  obtain ⟨he, hle⟩ := (exists_quotientIs_iff_places hb).1 ⟨m, h⟩
  have hkk : k = divPlaces a b := by
    by_contra hne
    exact hk (divPlaces a b) (by omega) ((exists_quotientIs_iff_places hb).2 ⟨he, le_rfl⟩)
  rw [divExact_of_ne_zero hb, if_neg (not_not.2 he), ← hkk]
  have hm : reducedNum a b * 10 ^ k / reducedDen a b = m := by
    rw [(quotientIs_iff hb).1 h, Nat.mul_div_cancel _ (reducedDen_pos hb)]
  rw [hm]

/-- Every terminating quotient has such digits. -/
theorem exists_fewest (h : terminates a b) :
    ∃ m, quotientIs a b m (divPlaces a b) ∧ ∀ j < divPlaces a b, ¬ ∃ n, quotientIs a b n j := by
  obtain ⟨m, hm⟩ := (exists_quotientIs_iff_places hb).2 ⟨(terminates_iff hb).1 h, le_rfl⟩
  refine ⟨m, hm, fun j hj hn => ?_⟩
  have := ((exists_quotientIs_iff_places hb).1 hn).2
  omega

end NonZero

/-- What DIV can answer, said once: a zero divisor, a quotient that does not terminate, or the exact quotient at the fewest
digits (R124 to R129). -/
theorem divExact_cases (a b : Word) :
    (valueField b = 0 ∧ divExact a b = .error .divisionByZero) ∨
    (valueField b ≠ 0 ∧ ¬ terminates a b ∧ divExact a b = .error .inexactQuotient) ∨
    (valueField b ≠ 0 ∧ ∃ m k, quotientIs a b m k ∧ (∀ j < k, ¬ ∃ n, quotientIs a b n j) ∧
      divExact a b = .ok (exactOf (crossSign a b) m k)) := by
  by_cases hb : valueField b = 0
  · exact .inl ⟨hb, divExact_of_zero hb a⟩
  · by_cases ht : terminates a b
    · obtain ⟨m, hm, hk⟩ := exists_fewest hb ht
      exact .inr (.inr ⟨hb, m, _, hm, hk, divExact_of_fewest hb hm hk⟩)
    · exact .inr (.inl ⟨hb, ht, divExact_of_not_terminates hb ht⟩)

/-- The response of DIV in the same three cases. -/
theorem divResponse_cases (a b : Word) :
    (valueField b = 0 ∧ divResponse a b = .condition .divisionByZero) ∨
    (valueField b ≠ 0 ∧ ¬ terminates a b ∧ divResponse a b = .condition .inexactQuotient) ∨
    (valueField b ≠ 0 ∧ ∃ m k, quotientIs a b m k ∧ (∀ j < k, ¬ ∃ n, quotientIs a b n j) ∧
      divResponse a b = .word (pack (crossSign a b) (m / 10 ^ k) (m % 10 ^ k))) := by
  unfold divResponse
  rcases divExact_cases a b with ⟨h, e⟩ | ⟨h, ht, e⟩ | ⟨h, m, k, hm, hk, e⟩ <;> rw [e]
  · exact .inl ⟨h, rfl⟩
  · exact .inr (.inl ⟨h, ht, rfl⟩)
  · exact .inr (.inr ⟨h, m, k, hm, hk, rfl⟩)

end Sys2Proof.Machine
end

