-- ==== Sys2Proof/Laws/PerInstr.lean ====
section
/-! SUPPORT. Statements about every instruction as syntax, one lemma per constructor. -/

namespace Sys2Proof.Laws.EncodedFields

/-- The encoder writes the code of R52 and the instruction's operands, and 0 into every field the operation does not read
(R53; the zeros are the model's choice, log 5). -/
def Statement (i : Instr) : Prop :=
  readFields (encode i) = encode i ∧
    match i with
    | .bitlen a => (encode i).op = 0x1 ∧ (encode i).a = a
    | .encode len str => (encode i).op = 0x2 ∧ (encode i).len = len ∧ (encode i).str = str
    | .decode a => (encode i).op = 0x3 ∧ (encode i).a = a
    | .add a b => (encode i).op = 0x4 ∧ (encode i).a = a ∧ (encode i).b = b
    | .sub a b => (encode i).op = 0x5 ∧ (encode i).a = a ∧ (encode i).b = b
    | .mul a b => (encode i).op = 0x6 ∧ (encode i).a = a ∧ (encode i).b = b
    | .div a b => (encode i).op = 0x7 ∧ (encode i).a = a ∧ (encode i).b = b
    | .neg a => (encode i).op = 0x8 ∧ (encode i).a = a

theorem bitlen (a : Word) : Statement (.bitlen a) := ⟨rfl, rfl, rfl⟩
theorem encode (len : StrLen) (str : Lanes) : Statement (.encode len str) := ⟨rfl, rfl, rfl, rfl⟩
theorem decode (a : Word) : Statement (.decode a) := ⟨rfl, rfl, rfl⟩
theorem add (a b : Word) : Statement (.add a b) := ⟨rfl, rfl, rfl, rfl⟩
theorem sub (a b : Word) : Statement (.sub a b) := ⟨rfl, rfl, rfl, rfl⟩
theorem mul (a b : Word) : Statement (.mul a b) := ⟨rfl, rfl, rfl, rfl⟩
theorem div (a b : Word) : Statement (.div a b) := ⟨rfl, rfl, rfl, rfl⟩
theorem neg (a : Word) : Statement (.neg a) := ⟨rfl, rfl, rfl⟩

end Sys2Proof.Laws.EncodedFields
end

