-- ==== Sys2Proof/Tests/Slice0.lean ====
section
/-! SUPPORT. Tests and witnesses.

`test_…`: expected results are rows of `spec/95_test_vectors.md` (the table number stands in the comment) or examples of a rule;
none was read off this model. `witness_…`: a concrete state and operands that meet the hypotheses of the statement of that name
in `Certificates/Slice0/Obligations.lean`, clause by clause. -/

namespace Sys2Proof.Tests

open Sys2Proof Sys2Proof.Machine

/-- A state some transactions in: DECODE has just answered "5.0", and these inputs wait. -/
def busy (inputs : List HostInput) : State := { rsp := stringRegs [0x35, 0x2E, 0x30], inputs := inputs }

/-- The characters of a text. -/
def chars (t : String) : List Byte := t.toList.map fun c => BitVec.ofNat 8 c.toNat

/-- The response registers one transaction leaves, started in `busy`. -/
def respOf (r : Request) : RspRegs :=
  match transact r (busy []) with
  | .next t => t.rsp
  | .fault _ => RspRegs.reset
  | .refused _ => RspRegs.reset

/-- A request with both words given. -/
def wordsReq (op : OpCode) (a b : Word) : Request := { blankRequest op with a := a, b := b }

/-- An ENCODE request for a text. -/
def textReq (t : String) : Request :=
  { blankRequest 0x2 with len := BitVec.ofNat 6 (chars t).length, str := lanesOf (chars t) }

/-! ### Well-formedness: an ill-formed term for each check -/

theorem test_wellFormed_refuses_length_33 : wellFormed (.encode 33 Lanes.zero) = false := by decide
theorem test_wellFormed_accepts_length_32 : wellFormed (.encode 32 Lanes.zero) = true := by decide
/-- R26 check (1): pointer 27 (2.5: 0xD8000000 is not well-formed). -/
theorem test_word_refuses_pointer_27 : wordWellFormed 0xD8000000 = false := by decide
/-- R26 check (2): the pointer is not the bit length of the fraction (2.5: 0x18000009). -/
theorem test_word_refuses_wide_pointer : wordWellFormed 0x18000009 = false := by decide
/-- R26 check (3): negative zero (2.5: 0x04000000). -/
theorem test_word_refuses_negative_zero : wordWellFormed 0x04000000 = false := by decide
theorem test_word_accepts_3_125 : wordWellFormed 0x380001FD = true := by decide

/-! ### Parameters: every "decision" row of R6's table at its value -/

theorem test_params_R6 :
    params.layout = .signMagnitude ∧ params.posSign = [] ∧
    (params.minusChar, params.dotChar, params.zeroChar) = ((0x2D, 0x2E, 0x30) : Byte × Byte × Byte) ∧
    params.strMax = 32 ∧ params.parseBits = 32 ∧ params.bitlenBits = 32 ∧ params.opBits = 4 ∧ params.statusBits = 3 ∧
    params.divInexact = .inexactQuotient ∧ params.divDigits = .fewest ∧ params.zeroDigits = 0 := by decide

/-! ### Decoding: the codes of R52 written out, with operands -/

theorem test_decode_bitlen :
    decode ⟨0b0001, 0x7D, 0xFF, 3, Lanes.zero⟩ = .instr (.bitlen 0x7D) ∧
      decodeTableWord 8 0b00000001 = some (.bitlen 0) := by decide
theorem test_decode_encode :
    decode ⟨0b0010, 0x7D, 0xFF, 3, lanesOf (chars "5.0")⟩ = .instr (.encode 3 (lanesOf (chars "5.0"))) ∧
      decodeTableWord 8 0b00000010 = some (.encode 0 Lanes.zero) := by decide
theorem test_decode_decode :
    decode ⟨0b0011, 0x05, 0xFF, 3, Lanes.zero⟩ = .instr (.decode 0x05) ∧
      decodeTableWord 8 0b00000011 = some (.decode 0) := by decide
theorem test_decode_add :
    decode ⟨0b0100, 0x01, 0x02, 3, Lanes.zero⟩ = .instr (.add 0x01 0x02) ∧
      decodeTableWord 8 0b00000100 = some (.add 0 0) := by decide
theorem test_decode_sub :
    decode ⟨0b0101, 0x01, 0x02, 3, Lanes.zero⟩ = .instr (.sub 0x01 0x02) ∧
      decodeTableWord 8 0b00000101 = some (.sub 0 0) := by decide
theorem test_decode_mul :
    decode ⟨0b0110, 0x01, 0x02, 3, Lanes.zero⟩ = .instr (.mul 0x01 0x02) ∧
      decodeTableWord 8 0b00000110 = some (.mul 0 0) := by decide
theorem test_decode_div :
    decode ⟨0b0111, 0x01, 0x02, 3, Lanes.zero⟩ = .instr (.div 0x01 0x02) ∧
      decodeTableWord 8 0b00000111 = some (.div 0 0) := by decide
theorem test_decode_neg :
    decode ⟨0b1000, 0x01, 0x02, 3, Lanes.zero⟩ = .instr (.neg 0x01) ∧
      decodeTableWord 8 0b00001000 = some (.neg 0) := by decide
/-- R54: 0x0 and 0x9 to 0xF are rejected by name. -/
theorem test_decode_reserved :
    ∀ op : OpCode, (op = 0 ∨ 9 ≤ op.toNat) → decode (blankRequest op) = .reservedOp op := by decide
/-- The word of the table runs in the very next step, as the first thing after reset. -/
theorem test_fetch_word :
    step (State.reset.withFetchWord 8 0x8) = exec (.neg 0) State.reset := rfl

/-! ### One transaction each -/

/-- 2.1. -/
theorem test_bitlen_top : respOf (wordsReq 0x1 0x80000000 0) = wordRegs 32 := by decide
/-- 2.1. -/
theorem test_bitlen_power : respOf (wordsReq 0x1 0x00000400 0) = wordRegs 11 := by decide
/-- 2.2. -/
theorem test_encode_negative : respOf (textReq "-12.34") = wordRegs 0x34000322 := by decide
/-- 2.3: outside the budget, pointer 27 and cut bits. -/
theorem test_encode_cut : respOf (textReq "0.99999999") = wordRegs 0xD9F5E0FF := by decide
/-- 2.5: pointer 31 reads as 26. -/
theorem test_decode_wide : respOf (wordsReq 0x3 0xFC000005 0) = stringRegs (chars "-0.5") := by decide
/-- 2.5: the longest string, 11 bytes. -/
theorem test_decode_long : respOf (wordsReq 0x3 0x0FFFFFFF 0) = stringRegs (chars "-33554431.1") := by decide
/-- S6 (R111): 3.125 + 0.3. -/
theorem test_add_aligns : respOf (wordsReq 0x4 0x380001FD 0x10000003) = wordRegs 0x480007A9 := by decide
/-- S19: equal operands leave no negative zero. -/
theorem test_sub_self : respOf (wordsReq 0x5 0x34000322 0x34000322) = wordRegs 0 := by decide
/-- S11: 0.1 * 0.2 is 0.02 before it is packed, and the word loses the leading zero. -/
theorem test_mul_leading_zero : respOf (wordsReq 0x6 0x08000001 0x10000002) = wordRegs 0x10000002 := by decide
/-- S8. -/
theorem test_div_exact : respOf (wordsReq 0x7 0x10000003 0x08000001) = wordRegs 0x00000003 := by decide
/-- S9. -/
theorem test_div_by_zero : respOf (wordsReq 0x7 0x00000001 0x00000000) = conditionRegs 2 := by decide
/-- S20. -/
theorem test_neg_sign : respOf (wordsReq 0x8 0x380001FD 0) = wordRegs 0x3C0001FD := by decide
/-- S20: zero stays. -/
theorem test_neg_zero : respOf (wordsReq 0x8 0 0) = wordRegs 0 := by decide
/-! ### Witnesses: the machine as a whole -/

theorem witness_ResetClearsResponseRegisters :
    transact (wordsReq 0x1 5 0) State.reset = .next { rsp := wordRegs 3, inputs := [] } ∧
    step (busy [.reset none []]) = .next State.reset ∧ (busy []).rsp.valid = true ∧
    State.reset.rsp.valid = false := ⟨rfl, rfl, rfl, rfl⟩

theorem witness_ResetPulseAbandonsTransaction :
    (busy [.reset (some (wordsReq 0x7 1 3)) [wordsReq 0x8 1 0], .request (wordsReq 0x1 5 0)]).inputs =
      .reset (some (wordsReq 0x7 1 3)) [wordsReq 0x8 1 0] :: .request (wordsReq 0x1 5 0) :: [] ∧
    step (busy [.reset (some (wordsReq 0x7 1 3)) [wordsReq 0x8 1 0], .request (wordsReq 0x1 5 0)]) =
      .next { State.reset with inputs := [.request (wordsReq 0x1 5 0)] } := ⟨rfl, rfl⟩

theorem witness_StepKeepsRegistersConsistent :
    (busy [.request (wordsReq 0x7 1 0)]).Consistent ∧
    step (busy [.request (wordsReq 0x7 1 0)]) = .next { rsp := conditionRegs 2, inputs := [] } := ⟨by decide, rfl⟩

/-- The invariant is no triviality: a status of 5, or a word left beside a condition, breaks it. -/
theorem witness_Consistent_excludes :
    ¬ State.Consistent { rsp := conditionRegs 5, inputs := [] } ∧
    ¬ State.Consistent { rsp := { wordRegs 7 with status := 2 }, inputs := [] } := by decide

theorem witness_StepRunsDecodedInstruction :
    ((busy [.request (wordsReq 0x6 1 2)]).inputs = .request (wordsReq 0x6 1 2) :: [] ∧
      decode (wordsReq 0x6 1 2) = .instr (.mul 1 2)) ∧
    ((busy [.request (wordsReq 0xF 1 2)]).inputs = .request (wordsReq 0xF 1 2) :: [] ∧
      decode (wordsReq 0xF 1 2) = .reservedOp 0xF) := by decide

theorem witness_IdleBlockKeepsItsState : (busy []).inputs = [] := rfl

theorem witness_RunLeavesResponseToLatestRequest :
    (busy [.request (wordsReq 0x7 1 0), .request (wordsReq 0x1 5 0), .reset none []]).inputs =
      [wordsReq 0x7 1 0].map .request ++ .request (wordsReq 0x1 5 0) :: [.reset none []] ∧
    (busy [.request (wordsReq 0x1 5 0)]).inputs = [].map .request ++ .request (wordsReq 0x1 5 0) :: [] := ⟨rfl, rfl⟩

/-! ### Witnesses: requests -/

theorem witness_UnreadFieldsAreIgnored :
    ((wordsReq 0x8 5 1).op = (wordsReq 0x8 5 2).op ∧ (wordsReq 0x8 5 1).op = 0x8 ∧
      (wordsReq 0x8 5 1).a = (wordsReq 0x8 5 2).a ∧ wordsReq 0x8 5 1 ≠ wordsReq 0x8 5 2) ∧
    ((⟨0x7, 6, 2, 0, Lanes.zero⟩ : Request).op = 0x7 ∧
      (⟨0x7, 6, 2, 0, Lanes.zero⟩ : Request) ≠ ⟨0x7, 6, 2, 63, Lanes.zero⟩) ∧
    ((∀ i : Fin 32, i.val < (1 : StrLen).toNat → (lanesOf (chars "5"))[i] = (lanesOf (chars "5x"))[i]) ∧
      (⟨0x2, 0, 0, 1, lanesOf (chars "5")⟩ : Request) ≠ ⟨0x2, 0, 0, 1, lanesOf (chars "5x")⟩) ∧
    ((wordsReq 0x0 1 2).op = 0x0 ∧ 9 ≤ (wordsReq 0x9 1 2).op.toNat ∧ 9 ≤ (wordsReq 0xF 1 2).op.toNat) := by decide

theorem witness_ReservedCodesRaiseIllegalRequest :
    (wordsReq 0x0 1 2).op = 0x0 ∧ 9 ≤ (wordsReq 0x9 1 2).op.toNat ∧ 9 ≤ (wordsReq 0xF 1 2).op.toNat ∧
    (1 ≤ (wordsReq 0x1 1 2).op.toNat ∧ (wordsReq 0x1 1 2).op.toNat ≤ 8) ∧
    (1 ≤ (wordsReq 0x8 1 2).op.toNat ∧ (wordsReq 0x8 1 2).op.toNat ≤ 8) := by decide

theorem witness_EveryResponseFieldIsWritten :
    (transact (wordsReq 0x3 5 0) State.reset = .next (busy []) ∧ (busy []).rsp.len.toNat ≤ (3 : Fin 32).val) ∧
    (transact (wordsReq 0x7 1 0) (busy []) = .next { rsp := conditionRegs 2, inputs := [] } ∧
      (conditionRegs 2).status ≠ 0 ∧ (wordsReq 0x7 1 0).op ≠ 0x3 ∧
      (conditionRegs 2).len.toNat ≤ (0 : Fin 32).val) ∧
    (transact (wordsReq 0x1 0xFFFFFFFF 0) (busy []) = .next { rsp := wordRegs 32, inputs := [] } ∧
      (wordsReq 0x1 0xFFFFFFFF 0).op = 0x1) :=
  ⟨⟨rfl, by decide⟩, ⟨rfl, by decide, by decide, by decide⟩, rfl, rfl⟩

/-! ### Witnesses: conditions -/

/-- Each cause of R150 occurs, and the two ways to IllegalRequest do. -/
theorem witness_StatusTellsTheCause :
    respOf (textReq "1.5-") = conditionRegs 1 ∧ respOf (wordsReq 0x7 1 0xF8000000) = conditionRegs 2 ∧
    respOf (wordsReq 0x7 1 3) = conditionRegs 3 ∧ respOf (wordsReq 0x9 0 0) = conditionRegs 4 ∧
    respOf { textReq "5.0" with len := 33 } = conditionRegs 4 ∧
    respOf { textReq "5.0" with len := 63 } = conditionRegs 4 := by decide

theorem witness_ConditionLeavesOnlyFiller :
    transact (wordsReq 0x7 1 0) (busy []) = .next { rsp := conditionRegs 2, inputs := [] } ∧
    (conditionRegs 2).status ≠ 0 := ⟨rfl, by decide⟩

theorem witness_FailedRequestLeavesNoTrace :
    transact (wordsReq 0x7 1 3) (busy []) = .next { rsp := conditionRegs 3, inputs := [] } := rfl

/-! ### Witnesses: BITLEN and the packed word -/

theorem witness_BitlenCountsBits :
    (0x00000001 : Word) ≠ 0 ∧ (wordsReq 0x1 1 0).op = 0x1 ∧ (wordsReq 0x1 1 0).a = 0x00000001 ∧
    respOf (wordsReq 0x1 0 0) = wordRegs 0 ∧ respOf (wordsReq 0x1 1 0) = wordRegs 1 := by decide

theorem witness_BitLengthIsHighestSetBit : (0 : Nat) < 1 ∧ bitLength 1 ≤ 1 := by decide

theorem witness_BitLengthBoundsItsArgument :
    (0 : Nat) < 1 ∧ (0 : Nat) ≤ 0 ∧ (0 : Nat) < 2 ^ 0 ∧ (67108863 : Nat) ≤ 67108864 ∧ (67108863 : Nat) < 2 ^ 26 ∧
    bitLength 67108863 = 26 ∧ bitLength 67108864 = 27 := by decide

theorem witness_UnpackSplitsValueField :
    min (pointerField 0x03FFFFFF) 26 = 0 ∧ min (pointerField 0xD3FFFFFF) 26 = 26 ∧
    min (pointerField 0xFBFFFFFF) 26 = 26 := by decide

theorem witness_PackIsLosslessWithinBudget :
    fits 67108863 0 ∧ fits 0 67108863 ∧ (10 ^ 7 - 1 < 10 ^ 7) ∧
    ((10 : Nat) ^ 7 ≤ 10 ^ 7 ∧ (10 : Nat) ^ 7 < 10 ^ 8) ∧ ((10 : Nat) ^ 7 ≤ 10 ^ 8 - 1 ∧ 10 ^ 8 - 1 < 10 ^ 8) := by decide

theorem witness_PackedWordInvariants :
    fits 67108863 0 ∧ (fits 33554431 1 ∧ 0 < pointerField (pack true 33554431 1)) ∧
    (fits 0 67108863 ∧ pointerField (pack false 0 67108863) = 26) := by decide

/-- One triple outside the budget at each end of each range of the pointer. -/
theorem witness_OutsideBudgetHighBitsAreDropped :
    (¬ fits 67108864 0 ∧ bitLength 0 ≤ 26) ∧ (¬ fits 1 67108863 ∧ bitLength 67108863 ≤ 26) ∧
    (¬ fits 0 67108864 ∧ 27 ≤ bitLength 67108864 ∧ bitLength 67108864 ≤ 31) ∧
    (¬ fits 0 2147483647 ∧ 27 ≤ bitLength 2147483647 ∧ bitLength 2147483647 ≤ 31) ∧
    (¬ fits 0 2147483648 ∧ 32 ≤ bitLength 2147483648) := by decide

theorem witness_ResultsAreNeverNegativeZero : valueField 0x00000000 = 0 ∧ valueField 0xFC000000 = 0 := by decide

theorem witness_WordEqualityIsFinerThanValue :
    wordWellFormed 0x10000003 = true ∧ wordWellFormed 0x2800001E = true := by decide

/-! ### Witnesses: strings -/

theorem acceptedParts_five (frac : Option (List Byte)) (h : ∀ f ∈ frac, parsable f) : acceptedParts [0x35] frac :=
  ⟨by decide, h⟩

theorem parsable_zero : ∀ f ∈ some ([0x30] : List Byte), parsable f := fun f h => by
  obtain rfl : [0x30] = f := Option.some.inj h
  decide

theorem accepted_five_zero : accepted [0x35, 0x2E, 0x30] :=
  ⟨false, [0x35], some [0x30], rfl, acceptedParts_five _ parsable_zero⟩

theorem not_accepted_dot : ¬ accepted [0x2E] := (encodeString_eq_none_iff _).1 (by decide)

theorem witness_DecimalPrintingReadsBack : (0 : Nat) < 1 ∧ (0 : Nat) < 67108863 := by decide

/-- Lengths 33 and 63 name no string; 32 and 0 do; a string of the grammar with and without a fraction; one off it. -/
theorem witness_EncodeAcceptsExactlyTheGrammar :
    32 < (33 : StrLen).toNat ∧ 32 < (63 : StrLen).toNat ∧ (32 : StrLen).toNat ≤ 32 ∧
    (requestString 3 (lanesOf (chars "5.0")) = spelled false [0x35] (some [0x30]) ∧
      acceptedParts [0x35] (some [0x30])) ∧
    (requestString 2 (lanesOf (chars "-5")) = spelled true [0x35] none ∧ acceptedParts [0x35] none) ∧
    (requestString 1 (lanesOf (chars ".")) = [0x2E] ∧ ¬ accepted [0x2E]) ∧
    ((textReq "5.0").op = 0x2 ∧ (textReq "5.0").len = 3 ∧ (textReq "5.0").str = lanesOf (chars "5.0")) :=
  ⟨by decide, by decide, by decide, ⟨by decide, acceptedParts_five _ parsable_zero⟩,
    ⟨by decide, acceptedParts_five _ (by simp)⟩, ⟨by decide, not_accepted_dot⟩, by decide⟩

/-- The longest strings the two clauses allow, 31 and 30 bytes, and a fraction that still fits with one digit more. -/
theorem witness_EncodeKeepsOnlyFractionTrailingZeros :
    (acceptedParts [0x35] (some (List.replicate 29 0x30)) ∧
      (spelled false [0x35] (some (List.replicate 29 0x30))).length ≤ 31) ∧
    (acceptedParts (List.replicate 30 0x30) none ∧ (spelled false (List.replicate 30 0x30) none).length ≤ 30) ∧
    ((0 : Nat) < 6710886 ∧ fits 0 (6710886 * 10)) :=
  ⟨⟨acceptedParts_five _ (fun f h => by obtain rfl := Option.some.inj h; decide), by decide⟩,
    ⟨⟨by decide, by simp⟩, by decide⟩, by decide⟩

theorem witness_DecodePrintsTheParts : (wordsReq 0x3 5 0).op = 0x3 ∧ (wordsReq 0x3 5 0).a = 5 := by decide

/-- A printed digit run that starts with `'0'` exists: it is `"0"` alone. -/
theorem witness_DecodeOutputShape :
    answer (.decode 0xD0000001) = stringRegs (spelled false [0x30] (some [0x31])) ∧
    ([0x30] : List Byte).head? = some 0x30 := by decide

/-- Well-formed; neither well-formed nor a negative zero; a negative zero with the widest pointer. -/
theorem witness_DecodeThenEncodeGivesWordBack :
    (wordWellFormed 0xD3FFFFFF = true ∧ ¬ negativeZero 0xD3FFFFFF) ∧
    (wordWellFormed 0xFC000005 = false ∧ ¬ negativeZero 0xFC000005) ∧ negativeZero 0xFC000000 := by decide

/-- Strings that round-trip, up to the edge of the budget, and accepted strings that do not: `"-0.0"`, `"0.02"`. -/
theorem witness_RoundTripKeepsExactlyCanonicalStrings :
    (32 : StrLen).toNat ≤ 32 ∧ accepted (requestString 3 (lanesOf (chars "5.0"))) ∧
    roundTrips (requestString 10 (lanesOf (chars "67108863.0"))) ∧
    respOf (textReq "-0.0") = wordRegs 0 ∧ respOf (wordsReq 0x3 0 0) = stringRegs (chars "0.0") :=
  ⟨by decide, by rw [show requestString 3 (lanesOf (chars "5.0")) = [0x35, 0x2E, 0x30] by decide]; exact accepted_five_zero,
    ⟨false, 67108863, 0, by decide, by decide, by decide⟩, by decide, by decide⟩

/-! ### Witnesses: the engine -/

theorem witness_AddAndSubPackTheSignedTotal :
    (wordsReq 0x4 1 2).op = 0x4 ∧ (wordsReq 0x5 1 2).op = 0x5 ∧ (wordsReq 0x5 1 2).a = 1 ∧ (wordsReq 0x5 1 2).b = 2 := by
  decide

theorem witness_AddAndSubLaws :
    wordWellFormed 0x380001FD = true ∧ ¬ negativeZero 0x380001FD ∧ ¬ negativeZero 0x18000009 := by decide

/-- 0.25 + 0.25 keeps two digits; 1.0 - 0.95 fits but its fraction has a leading zero; 67108863.0 + 1.0 does not fit. -/
theorem witness_AddAndSubExactness :
    (fits (addExact 0x28000019 0x28000019).int (addExact 0x28000019 0x28000019).frac ∧
      (addExact 0x28000019 0x28000019).frac ≠ 0 ∧ (addExact 0x28000019 0x28000019).fullFraction) ∧
    (fits (subExact 0x00000001 0x3800005F).int (subExact 0x00000001 0x3800005F).frac ∧
      ¬ (subExact 0x00000001 0x3800005F).fullFraction) ∧
    ¬ fits (addExact 0x03FFFFFF 0x00000001).int (addExact 0x03FFFFFF 0x00000001).frac := by decide

theorem witness_MulPacksTheProduct :
    (unpack 0x00000005).frac = 0 ∧ (wordsReq 0x6 1 2).op = 0x6 ∧ (wordsReq 0x6 1 2).a = 1 ∧ (wordsReq 0x6 1 2).b = 2 := by
  decide

theorem witness_MulLawsAndExactness :
    wordWellFormed 0x34000322 = true ∧
    (fits (mulExact 0x18000005 0x10000002).int (mulExact 0x18000005 0x10000002).frac ∧
      (mulExact 0x18000005 0x10000002).fullFraction) := by decide

theorem witness_ZeroDivisorRaisesDivisionByZero :
    valueField 0x00000000 = 0 ∧ valueField 0xFC000000 = 0 ∧ (answer (.div 0x00000000 0xFC000000)).status = 2 := by decide

theorem scaled_one : scaled 0x00000001 = ⟨false, 1, 0⟩ := by decide
theorem scaled_four : scaled 0x00000004 = ⟨false, 4, 0⟩ := by decide

theorem quarter : quotientIs 0x00000001 0x00000004 25 2 := by
  rw [quotientIs, abs_wordVal, abs_wordVal, scaled_one, scaled_four]; norm_num

theorem quarter_fewest : ∀ j < 2, ¬ ∃ n, quotientIs 0x00000001 0x00000004 n j := by
  intro j hj ⟨n, hn⟩
  rw [quotientIs, abs_wordVal, abs_wordVal, scaled_one, scaled_four] at hn
  interval_cases j
  · have h : ((n * 4 : Nat) : ℚ) = (1 : Nat) := by push_cast; norm_num at hn; linarith
    have := Nat.cast_injective h
    omega
  · have h : ((n * 4 : Nat) : ℚ) = (10 : Nat) := by push_cast; norm_num at hn; linarith
    have := Nat.cast_injective h
    omega

theorem not_terminates_third : ¬ terminates 0x00000001 0x00000003 := by
  rcases divResponse_cases 0x00000001 0x00000003 with ⟨h, -⟩ | ⟨-, h, -⟩ | ⟨-, m, k, -, -, h⟩
  · exact absurd h (by decide)
  · exact h
  · rw [show divResponse 0x00000001 0x00000003 = .condition .inexactQuotient by decide] at h
    cases h

/-- A divisor that is not zero, with a quotient that terminates and one that does not. -/
theorem witness_NonTerminatingQuotientRaisesInexact :
    valueField 0x00000003 ≠ 0 ∧ ¬ terminates 0x00000001 0x00000003 ∧ terminates 0x00000001 0x00000004 :=
  ⟨by decide, not_terminates_third, 25, 2, quarter⟩

/-- 1/4 = 25/10^2 and no fewer digits do; 3/1 needs none (k = 0); a zero divisor; 1/3 does not terminate. -/
theorem witness_DivGivesFewestDigits :
    (valueField 0x00000004 ≠ 0 ∧ quotientIs 0x00000001 0x00000004 25 2 ∧
      ∀ j < 2, ¬ ∃ n, quotientIs 0x00000001 0x00000004 n j) ∧
    terminates 0x00000001 0x00000004 ∧ divExact 0x00000001 0x00000004 = .ok ⟨false, 0, 25, 2⟩ ∧
    divExact 0x10000003 0x08000001 = .ok ⟨false, 3, 0, 0⟩ ∧
    valueField 0xFC000000 = 0 ∧ (valueField 0x00000003 ≠ 0 ∧ ¬ terminates 0x00000001 0x00000003) ∧
    (wordsReq 0x7 1 4).op = 0x7 :=
  ⟨⟨by decide, quarter, quarter_fewest⟩, ⟨25, 2, quarter⟩, rfl, rfl, by decide, ⟨by decide, not_terminates_third⟩, rfl⟩

theorem witness_TerminatingFractionsAreTwosAndFives :
    (0 < 1 ∧ Nat.Coprime 0 1) ∧ (0 < 4 ∧ Nat.Coprime 1 4 ∧ ∃ m k : Nat, (1 : ℚ) / 4 = m / 10 ^ k) :=
  ⟨by decide, by decide, by decide, 25, 2, by norm_num⟩

theorem witness_DivLawsAndExactness :
    divExact 0x00000001 0x00000008 = .ok ⟨false, 0, 125, 3⟩ ∧ (answer (.div 0x00000001 0x00000008)).status = 0 ∧
    (answer (.div 0x00000000 0x04000005)).status = 0 ∧ valueField 0xFFFFFFFF ≠ 0 := ⟨rfl, by decide, by decide, by decide⟩

theorem witness_EngineSizesAreBounded : divExact 0x00000001 0x00000004 = .ok ⟨false, 0, 25, 2⟩ := rfl

/-! ### Witnesses: NEG -/

theorem witness_NegFlipsOnlyTheSign :
    valueField 0x380001FD ≠ 0 ∧ (wordsReq 0x8 0x380001FD 0).op = 0x8 ∧ valueField 0x04000000 = 0 := by decide

theorem witness_NegProperties :
    wordWellFormed 0x380001FD = true ∧ (valueField 0x380001FD ≠ 0 ∧ signBit 0x380001FD = false) ∧
    (valueField 0xFC000005 ≠ 0 ∧ signBit 0xFC000005 = true) := by decide

/-- A word whose value field is 0; a word made by ENCODE, and a zero made from it by NEG and ADD. -/
theorem witness_NegAgreesWithTheEngine :
    valueField 0x04000000 = 0 ∧ Produced 0x00000005 ∧ Produced 0x00000000 :=
  have h : Produced 0x00000005 := .byEncode (len := 1) (str := lanesOf [0x35]) (by decide)
  ⟨by decide, h, .byAdd h (.byNeg h)⟩

end Sys2Proof.Tests
end

section
/-! PROOFS. The state and the packed word (spec 10_state.md): R24 and R31. -/

namespace Sys2Proof.Machine

/-! ### A response is a function of its request (R31) -/

/-- Settles O8: the function is `requestResponse`, written out as registers. -/
theorem responseIsFunctionOfRequest : Obligations.ResponseIsFunctionOfRequest :=
  ⟨fun r => (requestResponse r).regs, transact_eq⟩

/-! ### The fields of a packed word (R24) -/

/-- Where the pointer is not clamped, the bits below it are the fraction `unpack` reads (R76). -/
theorem valueField_mod_pointer {w : Word} (h : pointerField w ≤ 26) :
    valueField w % 2 ^ pointerField w = (unpack w).frac := by
  rw [unpack_frac, min_eq_left h]

/-- The value field has no bit at or above position 26 (R23). -/
theorem valueField_testBit_of_le {i : Nat} (w : Word) (h : 26 ≤ i) : (valueField w).testBit i = false :=
  Nat.testBit_lt_two_pow ((valueField_lt w).trans_le (Nat.pow_le_pow_right two_pos h))

/-- R24 (e), for every triple: `pack` clears the sign when the value field is 0. -/
theorem not_negativeZero_pack (neg : Bool) (iv fv : Nat) : ¬ negativeZero (pack neg iv fv) := by
  rintro ⟨hsign, hvalue⟩
  rw [valueField_pack] at hvalue
  simp [hvalue] at hsign

/-- R24 (a) to (d): the pointer and the value field of a triple inside the budget. -/
theorem pack_invariants_of_fits (neg : Bool) {iv fv : Nat} (h : fits iv fv) :
    let w := pack neg iv fv
    pointerField w ≤ 26 ∧
    (fv = 0 → pointerField w = 0 ∧ decStr (unpack w).frac = [0x30]) ∧
    valueField w % 2 ^ pointerField w = fv ∧
    pointerField w = bitLength fv ∧
    (0 < pointerField w → (valueField w).testBit (pointerField w - 1) = true) := by
  intro w
  obtain ⟨hle, htop, -⟩ := (wordWellFormed_iff w).1 (wellFormed_pack neg h)
  have hptr : pointerField w = bitLength fv := pointerField_pack_of_fits neg h
  have hfrac : (unpack w).frac = fv := congrArg Logical.frac (unpack_pack neg h)
  refine ⟨hle, ?_, (valueField_mod_pointer hle).trans hfrac, hptr, fun hpos => htop.resolve_left hpos.ne'⟩
  rintro rfl
  exact ⟨hptr.trans bitLength_zero, hfrac.symm ▸ decStr_zero⟩

/-- Any fraction of 27 to 31 bits breaks R24 (a), (c) and (d): the pointer points above the value field, which is too
short to hold the fraction (R89). -/
theorem pack_wide_fraction (neg : Bool) (iv : Nat) {fv : Nat} (h27 : 27 ≤ bitLength fv) (h31 : bitLength fv ≤ 31) :
    let w := pack neg iv fv
    ¬ fits iv fv ∧ 26 < pointerField w ∧ valueField w % 2 ^ pointerField w ≠ fv ∧
    (valueField w).testBit (pointerField w - 1) = false := by
  intro w
  have hptr : pointerField w = bitLength fv := by
    rw [pointerField_pack]; omega
  have hfv : 2 ^ 26 ≤ fv := lt_bitLength_iff.1 h27
  have hcut : valueField w % 2 ^ pointerField w < fv :=
    ((Nat.mod_le _ _).trans_lt (valueField_lt w)).trans_le hfv
  refine ⟨?_, by omega, hcut.ne, valueField_testBit_of_le w (by omega)⟩
  unfold fits; omega

/-- Settles O26; the triple that does not fit is `0.67108864`, whose fraction is `2 ^ 26`, the least of 27 bits. -/
theorem packedWordInvariants : Obligations.PackedWordInvariants :=
  have hbits : bitLength (2 ^ 26) = 27 := by decide
  ⟨fun neg _ _ h => pack_invariants_of_fits neg h, not_negativeZero_pack,
    false, 0, 2 ^ 26, pack_wide_fraction false 0 hbits.ge (by omega)⟩

end Sys2Proof.Machine
end

section
/-! PROOFS. Requests and responses (spec 30_encoding.md): R51, R53 and R54. -/

namespace Sys2Proof.Machine

/-! ### What a request is answered with, by its operation code -/

/-- The decoder gives an instruction only to its own code of R52. -/
theorem op_eq_of_decode {r : Request} {i : Instr} (h : decode r = .instr i) : r.op = (encode i).op := by
  unfold decode at h
  split at h <;> cases h <;> assumption

/-- The codes 1 to 8 select an operation (R52). -/
theorem exists_instr_of_op {r : Request} (hpos : 1 ≤ r.op.toNat) (hle : r.op.toNat ≤ 8) : ∃ i, decode r = .instr i := by
  rcases opCode_cases r.op with h | h | h | h | h | h | h | h | h
  · exact ⟨_, decode_one h⟩
  · exact ⟨_, decode_two h⟩
  · exact ⟨_, decode_three h⟩
  · exact ⟨_, decode_four h⟩
  · exact ⟨_, decode_five h⟩
  · exact ⟨_, decode_six h⟩
  · exact ⟨_, decode_seven h⟩
  · exact ⟨_, decode_eight h⟩
  · rcases h with h | h
    · simp [h] at hpos
    · omega

theorem requestResponse_of_decode {r : Request} {i : Instr} (h : decode r = .instr i) :
    requestResponse r = responseOf i := by
  rw [requestResponse, h]

/-- A code that names no operation is answered with IllegalRequest (R54). -/
theorem requestResponse_of_reserved {r : Request} (h : r.op = 0 ∨ 9 ≤ r.op.toNat) :
    requestResponse r = .condition .illegalRequest := by
  rw [requestResponse, decode_reserved h]

theorem transact_congr {q r : Request} (h : requestResponse q = requestResponse r) (s : State) :
    transact q s = transact r s := by
  rw [transact_eq, transact_eq, h]

theorem transact_congr_of_decode {q r : Request} (h : decode q = decode r) (s : State) : transact q s = transact r s := by
  rw [transact, transact, h]

/-! ### Fields that are not read (R53) -/

/-- The lanes at or beyond the length do not reach ENCODE's response (R56). -/
theorem encodeResponse_congr {len : StrLen} {x y : Lanes} (h : ∀ i : Fin 32, i.val < len.toNat → x[i] = y[i]) :
    encodeResponse len x = encodeResponse len y := by
  rw [encodeResponse, encodeResponse, requestString_congr h]

/-- The operations that read `a` alone: BITLEN, DECODE, NEG. -/
theorem decode_congr_of_a {q r : Request} (hop : q.op = r.op) (hq : q.op = 0x1 ∨ q.op = 0x3 ∨ q.op = 0x8)
    (ha : q.a = r.a) : decode q = decode r := by
  rcases hq with h | h | h
  · rw [decode_one h, decode_one (hop ▸ h), ha]
  · rw [decode_three h, decode_three (hop ▸ h), ha]
  · rw [decode_eight h, decode_eight (hop ▸ h), ha]

/-- The operations that read `a` and `b`: ADD, SUB, MUL, DIV. -/
theorem decode_congr_of_a_b {q r : Request} (hop : q.op = r.op)
    (hq : q.op = 0x4 ∨ q.op = 0x5 ∨ q.op = 0x6 ∨ q.op = 0x7) (ha : q.a = r.a) (hb : q.b = r.b) : decode q = decode r := by
  rcases hq with h | h | h | h
  · rw [decode_four h, decode_four (hop ▸ h), ha, hb]
  · rw [decode_five h, decode_five (hop ▸ h), ha, hb]
  · rw [decode_six h, decode_six (hop ▸ h), ha, hb]
  · rw [decode_seven h, decode_seven (hop ▸ h), ha, hb]

/-- ENCODE reads the length and the lanes below it. -/
theorem requestResponse_congr_of_string {q r : Request} (hop : q.op = r.op) (hq : q.op = 0x2) (hlen : q.len = r.len)
    (hstr : ∀ i : Fin 32, i.val < q.len.toNat → q.str[i] = r.str[i]) : requestResponse q = requestResponse r := by
  rw [requestResponse_of_decode (decode_two hq), requestResponse_of_decode (decode_two (hop ▸ hq)), ← hlen]
  exact encodeResponse_congr hstr

/-- Settles O11: requests that agree on the fields read decode alike, except for the lanes ENCODE leaves out, which its
response does not depend on. -/
theorem unreadFieldsAreIgnored : Obligations.UnreadFieldsAreIgnored := by
  intro q r s hop
  refine ⟨fun hq ha => transact_congr_of_decode (decode_congr_of_a hop hq ha) s,
    fun hq ha hb => transact_congr_of_decode (decode_congr_of_a_b hop hq ha hb) s,
    fun hq hlen hstr => transact_congr (requestResponse_congr_of_string hop hq hlen hstr) s,
    fun hq => transact_congr ?_ s⟩
  rw [requestResponse_of_reserved hq, requestResponse_of_reserved (hop ▸ hq)]

/-! ### Reserved codes (R54) -/

/-- Settles O14: a reserved code is answered with the condition IllegalRequest, whose code is 4; DECODE always answers
with a string. -/
theorem reservedCodesRaiseIllegalRequest : Obligations.ReservedCodesRaiseIllegalRequest := by
  refine ⟨fun r s h => ?_, fun r => exists_instr_of_op, fun w => ?_⟩
  · rw [transact_eq, requestResponse_of_reserved h]
    rfl
  · rw [answer_decode, stringRegs_status]

/-! ### Which operation answers with a string -/

theorem encodeResponse_ne_string (len : StrLen) (str : Lanes) (t : List Byte) : encodeResponse len str ≠ .string t := by
  unfold encodeResponse
  split
  · nofun
  · split <;> nofun

theorem divResponse_ne_string (a b : Word) (t : List Byte) : divResponse a b ≠ .string t := by
  unfold divResponse
  split <;> nofun

/-- DECODE alone produces a string (R51). -/
theorem responseOf_ne_string {i : Instr} (h : ∀ a, i ≠ .decode a) (t : List Byte) : responseOf i ≠ .string t := by
  cases i with
  | decode a => exact absurd rfl (h a)
  | encode len str => exact encodeResponse_ne_string len str t
  | div a b => exact divResponse_ne_string a b t
  | bitlen | add | sub | mul | neg => nofun

theorem requestResponse_ne_string {r : Request} (h : r.op ≠ 0x3) (t : List Byte) : requestResponse r ≠ .string t := by
  cases hd : decode r with
  | instr i =>
    rw [requestResponse_of_decode hd]
    refine responseOf_ne_string (fun a hi => h ?_) t
    rw [op_eq_of_decode hd, hi]
    rfl
  | reservedOp op =>
    rw [requestResponse, hd]
    nofun

/-! ### The registers a response leaves (R51) -/

theorem conditionCode_toNat_le (c : Condition) : (conditionCode c).toNat ≤ 4 := by
  cases c <;> decide

/-- Codes 5 to 7 are never written (R150). -/
theorem regs_status_toNat_le (x : Response) : x.regs.status.toNat ≤ 4 := by
  cases x with
  | word w => exact Nat.zero_le 4
  | string t => exact Nat.zero_le 4
  | condition c => exact conditionCode_toNat_le c

theorem regs_filler_of_status_ne_zero {x : Response} (h : x.regs.status ≠ 0) :
    x.regs.word = 0 ∧ x.regs.len = 0 ∧ x.regs.str = Lanes.zero := by
  cases x with
  | word w => exact absurd rfl h
  | string t => exact absurd rfl h
  | condition c => exact ⟨rfl, rfl, rfl⟩

theorem regs_no_string {x : Response} (h : ∀ t, x ≠ .string t) : x.regs.len = 0 ∧ x.regs.str = Lanes.zero := by
  cases x with
  | word w => exact ⟨rfl, rfl⟩
  | string t => exact absurd rfl (h t)
  | condition c => exact ⟨rfl, rfl⟩

theorem lane_eq_zero {x : Lanes} (h : x = Lanes.zero) (k : Fin 32) : x[k] = 0x00 :=
  h ▸ zeroLanes_getElem k.val k.isLt

/-- A string that the length register can count leaves 0x00 in every lane at or beyond that length. -/
theorem stringRegs_lane_beyond {t : List Byte} (ht : t.length < 64) {k : Fin 32}
    (hk : (stringRegs t).len.toNat ≤ k.val) : (stringRegs t).str[k] = 0x00 := by
  have hlen : (stringRegs t).len.toNat = t.length := by
    rw [stringRegs_len, BitVec.toNat_ofNat, Nat.mod_eq_of_lt ht]
  exact lanesOf_beyond k.isLt (hlen ▸ hk)

/-- A bit length is at most 32 (R71). -/
theorem bitlenWord_toNat_le (a : BitlenOperand) : (bitlenWord a).toNat ≤ 32 := by
  rw [bitlenWord, BitVec.toNat_ofNat]
  exact (Nat.mod_le _ _).trans (bitLength_le_iff.2 a.isLt)

theorem requestResponse_lane_beyond (r : Request) {k : Fin 32} (hk : (requestResponse r).regs.len.toNat ≤ k.val) :
    (requestResponse r).regs.str[k] = 0x00 := by
  by_cases h : r.op = 0x3
  · rw [requestResponse_of_decode (decode_three h)] at hk ⊢
    exact stringRegs_lane_beyond ((length_decodeString_le r.a).trans_lt (by decide)) hk
  · exact lane_eq_zero (regs_no_string (requestResponse_ne_string h)).2 k

/-- Settles O15: the registers after a transaction are those of the request's response, and each field is a fact about
these. -/
theorem everyResponseFieldIsWritten : Obligations.EveryResponseFieldIsWritten := by
  intro r s t h
  obtain rfl : { s with rsp := (requestResponse r).regs } = t := Host.Outcome.next.inj ((transact_eq r s).symm.trans h)
  refine ⟨rfl, regs_valid _, regs_status_toNat_le _, transact_eq r, fun k => requestResponse_lane_beyond r, fun hstatus => ?_,
    fun hdecode => ?_, fun hother => ?_, fun hbitlen => ?_⟩
  · obtain ⟨hword, hlen, hstr⟩ := regs_filler_of_status_ne_zero hstatus
    exact ⟨hword, hlen, lane_eq_zero hstr⟩
  · rw [requestResponse_of_decode (decode_three hdecode)]
    rfl
  · obtain ⟨hlen, hstr⟩ := regs_no_string (requestResponse_ne_string hother)
    exact ⟨hlen, lane_eq_zero hstr⟩
  · rw [requestResponse_of_decode (decode_one hbitlen)]
    exact bitlenWord_toNat_le r.a

end Sys2Proof.Machine
end

section
/-! PROOFS. The bit length (spec 40_bitlength.md): R70 and R71. -/

namespace Sys2Proof.Machine

/-! ### The highest set bit (R70) -/

theorem testBit_bitLength_pred {n : Nat} (h : 0 < n) : n.testBit (bitLength n - 1) = true := by
  rw [bitLength_of_pos h, Nat.add_sub_cancel]
  exact Nat.testBit_log2 h.ne'

theorem testBit_of_bitLength_le {n i : Nat} (h : bitLength n ≤ i) : n.testBit i = false :=
  Nat.testBit_lt_two_pow (bitLength_le_iff.1 h)

/-- Settles O20: the highest set bit stands at `bitLength n - 1`, and the shift of the loop takes one bit off. -/
theorem bitLengthIsHighestSetBit : Obligations.BitLengthIsHighestSetBit :=
  ⟨bitLength_zero, fun _ hpos =>
    ⟨bitLength_shift hpos, testBit_bitLength_pred hpos, fun _ => testBit_of_bitLength_le⟩⟩

/-! ### The word BITLEN answers (R71) -/

/-- The bit length of an operand is at most 32, so the result word holds it whole. -/
@[simp] theorem bitlenWord_toNat (a : BitlenOperand) : (bitlenWord a).toNat = bitLength a.toNat := by
  have hle : bitLength a.toNat ≤ 32 := bitLength_le_iff.2 a.isLt
  rw [bitlenWord, BitVec.toNat_ofNat, Nat.mod_eq_of_lt (hle.trans_lt (by decide))]

@[simp] theorem bitlenWord_zero : bitlenWord 0 = 0 := rfl

/-- Settles O19: BITLEN answers `bitlenWord a`, whose number is the bit length of `a`. -/
theorem bitlenCountsBits : Obligations.BitlenCountsBits := by
  intro a s
  refine ⟨bitlenWord a, exec_eq (.bitlen a) s, bitlenWord_toNat a, ?_, fun ha => ?_, bitlenWord_toNat_le a, ?_⟩
  · rintro rfl
    exact bitlenWord_zero
  · have hpos : 0 < a.toNat := BitVec.toNat_pos_of_ne_zero ha
    rw [bitlenWord_toNat]
    exact ⟨bitLength_pos_iff.2 hpos, two_pow_le_of_pos hpos, lt_two_pow_bitLength a.toNat⟩
  · rintro r hop rfl
    exact decode_one hop

end Sys2Proof.Machine
end

section
/-! PROOFS. The codec (spec 41_codec.md): R75 to R80, R82 and R88. -/

namespace Sys2Proof.Machine

/-! ### `pack` and `unpack` (R75, R76) -/

/-- Settles O22: the three fields of a packed word, with `packValue` written out. -/
theorem packAssemblesFields : Obligations.PackAssemblesFields := by
  intro neg iv fv
  refine ⟨pointerField_pack neg iv fv, valueField_pack neg iv fv, ?_⟩
  rw [signBit_pack, decide_not]
  rfl

/-- Bit `i` of the integer part is bit `i + pc` of the word, as far as the value field reaches (R76). -/
theorem unpack_int_testBit (w : Word) (i : Nat) :
    (unpack w).int.testBit i =
      (decide (i + min (pointerField w) 26 < 26) && w.getLsbD (i + min (pointerField w) 26)) := by
  rw [unpack_int, Nat.testBit_div_two_pow, valueField_testBit, Nat.add_comm]

/-- Bit `i` of the fraction is bit `i` of the word, below the clamped pointer (R76). -/
theorem unpack_frac_testBit (w : Word) (i : Nat) :
    (unpack w).frac.testBit i = (decide (i < min (pointerField w) 26) && w.getLsbD i) := by
  rw [unpack_frac, Nat.testBit_mod_two_pow, valueField_testBit]
  by_cases h : i < min (pointerField w) 26
  · have h26 : i < 26 := h.trans_le (min_le_right _ _)
    simp [h26]
  · simp [h]

theorem unpack_of_clamp_zero {w : Word} (h : min (pointerField w) 26 = 0) :
    (unpack w).int = valueField w ∧ (unpack w).frac = 0 := by
  rw [unpack_int, unpack_frac, h, pow_zero]
  exact ⟨Nat.div_one _, Nat.mod_one _⟩

theorem unpack_of_clamp_top {w : Word} (h : min (pointerField w) 26 = 26) :
    (unpack w).int = 0 ∧ (unpack w).frac = valueField w := by
  rw [unpack_int, unpack_frac, h]
  exact ⟨Nat.div_eq_of_lt (valueField_lt w), Nat.mod_eq_of_lt (valueField_lt w)⟩

/-- Settles O23. -/
theorem unpackSplitsValueField : Obligations.UnpackSplitsValueField := fun w =>
  ⟨signBit_eq_getLsbD w, unpack_int w, unpack_frac w, unpack_int_testBit w, unpack_frac_testBit w,
    unpack_int_lt w, unpack_frac_lt w, fits_unpack w, unpack_of_clamp_zero, unpack_of_clamp_top⟩

/-! ### The digit parser (R78) -/

theorem parseUnsigned_eq_none_iff {t : List Byte} : parseUnsigned t = none ↔ ¬ parsable t := by
  rw [Option.eq_none_iff_forall_ne_some]
  constructor
  · exact fun h ht => h _ (parseUnsigned_eq_some_iff.2 ⟨ht, rfl⟩)
  · exact fun h n hn => h (parseUnsigned_eq_some_iff.1 hn).1

/-- Settles O30: the parser takes the parsable segments and returns their numeral. -/
theorem parserReadsTheNumeral : Obligations.ParserReadsTheNumeral := by
  refine ⟨fun t v => ?_, fun t => parseUnsigned_eq_none_iff, by decide⟩
  rw [parseUnsigned_eq_some_iff]
  constructor
  · rintro ⟨⟨hrun, hlt⟩, rfl⟩
    exact ⟨hrun, rfl, hlt⟩
  · rintro ⟨hrun, rfl, hlt⟩
    exact ⟨⟨hrun, hlt⟩, rfl⟩

/-! ### ENCODE (R77, R79, R80) -/

/-- The response to a string of the grammar. -/
theorem encodeResponse_spelled {len : StrLen} {str : Lanes} {neg : Bool} {int : List Byte} {frac : Option (List Byte)}
    (hlen : len.toNat ≤ 32) (hstr : requestString len str = spelled neg int frac) (hparts : acceptedParts int frac) :
    encodeResponse len str = .word (pack neg (numeral int) (fracNumeral frac)) :=
  encodeResponse_of_some hlen (hstr ▸ encodeString_spelled hparts)

/-- The response to a string off the grammar. -/
theorem encodeResponse_of_not_accepted {len : StrLen} {str : Lanes} (hlen : len.toNat ≤ 32)
    (h : ¬ accepted (requestString len str)) : encodeResponse len str = .condition .malformedNumber :=
  encodeResponse_of_none hlen ((encodeString_eq_none_iff _).2 h)

theorem exec_encode (len : StrLen) (str : Lanes) (s : State) :
    exec (.encode len str) s = .next { s with rsp := (encodeResponse len str).regs } := exec_eq _ s

/-- Settles O32: the response in the three cases, an over-long length, a string of the grammar and any other string. -/
theorem encodeAcceptsExactlyTheGrammar : Obligations.EncodeAcceptsExactlyTheGrammar := by
  intro len str s
  rw [exec_encode]
  refine ⟨fun hlong => ?_, fun hlen => ⟨fun neg int frac hstr hparts => ?_, fun hnot => ?_⟩, ?_⟩
  · rw [encodeResponse_of_long hlong]
    rfl
  · rw [encodeResponse_spelled hlen hstr hparts]
    rfl
  · rw [encodeResponse_of_not_accepted hlen hnot]
    rfl
  · rintro r hop rfl rfl
    exact decode_two hop

/-! ### What the format cannot hold (R88) -/

theorem parsable_cons_zero {t : List Byte} (h : parsable t) : parsable (0x30 :: t) := by
  obtain ⟨⟨-, hdigits⟩, hlt⟩ := h
  exact ⟨⟨List.cons_ne_nil _ _, List.forall_mem_cons.2 ⟨by decide, hdigits⟩⟩, by rwa [numeral_cons_zero]⟩

theorem acceptedParts_some_iff {int f : List Byte} : acceptedParts int (some f) ↔ parsable int ∧ parsable f := by
  simp [acceptedParts]

theorem fracNumeral_some (f : List Byte) : fracNumeral (some f) = numeral f := rfl

theorem length_spelled_some (neg : Bool) (int f : List Byte) :
    (spelled neg int (some f)).length = (spelled neg int none).length + (f.length + 1) := by
  simp only [spelled, List.length_append, List.length_cons, List.length_nil]
  omega

theorem length_spelled_cons (neg : Bool) (c : Byte) (int : List Byte) (frac : Option (List Byte)) :
    (spelled neg (c :: int) frac).length = (spelled neg int frac).length + 1 := by
  simp only [spelled, List.length_append, List.length_cons]
  omega

/-- ENCODE's answer to a string of the grammar that a request can carry. -/
theorem answer_encodeInstr_spelled {neg : Bool} {int : List Byte} {frac : Option (List Byte)}
    (hparts : acceptedParts int frac) (hlen : (spelled neg int frac).length ≤ 32) :
    answer (encodeInstr (spelled neg int frac)) = wordRegs (pack neg (numeral int) (fracNumeral frac)) := by
  have hnat : (BitVec.ofNat 6 (spelled neg int frac).length).toNat ≤ 32 := (Nat.mod_le _ _).trans hlen
  rw [encodeInstr, answer_encode, encodeResponse_spelled hnat (requestString_lanesOf hlen) hparts]
  rfl

/-- R88 (a), (c): a leading zero changes neither numeral, so neither run that starts with one gives another word. -/
theorem answer_encodeInstr_leading_zero {neg : Bool} {int f : List Byte} (hparts : acceptedParts int (some f))
    (hlen : (spelled neg int (some f)).length ≤ 31) :
    answer (encodeInstr (spelled neg int (some (0x30 :: f)))) = answer (encodeInstr (spelled neg int (some f))) ∧
    answer (encodeInstr (spelled neg (0x30 :: int) (some f))) = answer (encodeInstr (spelled neg int (some f))) := by
  obtain ⟨hint, hf⟩ := acceptedParts_some_iff.1 hparts
  have hfrac0 := acceptedParts_some_iff.2 ⟨hint, parsable_cons_zero hf⟩
  have hint0 := acceptedParts_some_iff.2 ⟨parsable_cons_zero hint, hf⟩
  have hlenFrac : (spelled neg int (some (0x30 :: f))).length ≤ 32 := by
    rw [length_spelled_some] at hlen ⊢
    rw [List.length_cons]
    omega
  have hlenInt : (spelled neg (0x30 :: int) (some f)).length ≤ 32 := by
    rw [length_spelled_cons]
    omega
  rw [answer_encodeInstr_spelled hparts (by omega), answer_encodeInstr_spelled hfrac0 hlenFrac,
    answer_encodeInstr_spelled hint0 hlenInt, fracNumeral_some, fracNumeral_some, numeral_cons_zero, numeral_cons_zero]
  exact ⟨rfl, rfl⟩

/-- R88 (d): a missing fraction is the fraction `0`. -/
theorem answer_encodeInstr_missing_fraction {neg : Bool} {int : List Byte} (hparts : acceptedParts int none)
    (hlen : (spelled neg int none).length ≤ 30) :
    answer (encodeInstr (spelled neg int none)) = answer (encodeInstr (spelled neg int (some [0x30]))) := by
  have hdot : acceptedParts int (some [0x30]) := acceptedParts_some_iff.2 ⟨hparts.1, by decide⟩
  have hlenDot : (spelled neg int (some [0x30])).length ≤ 32 := by
    rw [length_spelled_some, List.length_singleton]
    omega
  rw [answer_encodeInstr_spelled hparts (by omega), answer_encodeInstr_spelled hdot hlenDot]
  rfl

/-- The number of a word packed within the budget. -/
theorem wordVal_pack_of_fits (neg : Bool) {iv fv : Nat} (h : fits iv fv) :
    wordVal (pack neg iv fv) = signFactor neg * (iv + fv / 10 ^ decDigits fv) :=
  (wordVal_pack_iff neg (lt_ten_pow_decDigits fv)).2 ⟨h, .inr rfl⟩

/-- R88 (b): a trailing zero of the fraction is stored, and adds nothing to the number. -/
theorem pack_trailing_zero (neg : Bool) {iv fv : Nat} (hpos : 0 < fv) (h : fits iv (fv * 10)) :
    pack neg iv (fv * 10) ≠ pack neg iv fv ∧ wordVal (pack neg iv (fv * 10)) = wordVal (pack neg iv fv) := by
  have hfits : fits iv fv :=
    (Nat.add_le_add_left (bitLength_mono (Nat.le_mul_of_pos_right fv (by decide))) _).trans h
  constructor
  · intro heq
    have hfrac := congrArg (fun w => (unpack w).frac) heq
    simp only [unpack_pack neg h, unpack_pack neg hfits] at hfrac
    omega
  · have hdigits : decDigits (fv * 10) = decDigits fv + 1 := decDigits_mul_pow hpos 1
    rw [wordVal_pack_of_fits neg h, wordVal_pack_of_fits neg hfits, hdigits, pow_succ, Nat.cast_mul, Nat.cast_ofNat,
      mul_div_mul_right _ _ (by norm_num)]

/-- Settles O33: the laws of R88 (a) to (d), then the rule's examples, evaluated. -/
theorem encodeKeepsOnlyFractionTrailingZeros : Obligations.EncodeKeepsOnlyFractionTrailingZeros := by
  refine ⟨fun _ _ _ => answer_encodeInstr_leading_zero, fun _ _ => answer_encodeInstr_missing_fraction,
    fun neg _ _ => pack_trailing_zero neg, by decide, by decide, ?_, by decide, by decide, by decide, by decide,
    by decide, by decide⟩
  have hpack : (0x10000002 : Word) = pack false 0 2 := by decide
  rw [hpack, wordVal_pack_of_fits false (by decide), show decDigits 2 = 1 from rfl]
  norm_num [signFactor]

/-! ### DECODE (R82) -/

theorem exec_decode (a : Word) (s : State) :
    exec (.decode a) s = .next { s with rsp := stringRegs (decodeString a) } := exec_eq _ s

/-- The string DECODE prints, in the fields of the word. -/
theorem decodeString_eq_fields (a : Word) :
    decodeString a =
      (if a.getLsbD 26 then [0x2D] else []) ++ decStr (valueField a / 2 ^ min (pointerField a) 26) ++ [0x2E] ++
        decStr (valueField a % 2 ^ min (pointerField a) 26) := by
  rw [← unpack_int, ← unpack_frac]
  rfl

/-- Settles O34. -/
theorem decodePrintsTheParts : Obligations.DecodePrintsTheParts := by
  intro a s
  refine ⟨?_, ?_⟩
  · rw [exec_decode, decodeString_eq_fields]
  · rintro r hop rfl
    exact decode_three hop

end Sys2Proof.Machine
end

section
/-! PROOFS. ADD and SUB and what the engine's operations share (spec 42_addsub.md): R101 to R106. -/

namespace Sys2Proof.Machine

/-! ### Scaled integers (R101) -/

/-- The number of a word as one fraction, `(-1)^s * n / 10^d`. -/
theorem wordVal_eq_div (w : Word) :
    wordVal w = signFactor (signBit w) * (scaled w).mag / 10 ^ (scaled w).places := by
  rw [wordVal_eq, mul_div_assoc]

/-- Settles O39: the fields of `scaled`, the number they denote and their bounds, then the rule's examples, evaluated. -/
theorem scaledIntegerDenotesTheWord : Obligations.ScaledIntegerDenotesTheWord :=
  ⟨fun w => ⟨scaled_neg w, scaled_places w, scaled_mag w, wordVal_eq_div w, scaled_places_le w, scaled_mag_lt w⟩,
    by norm_num, by decide, by decide, by decide, by decide, by decide, by decide⟩

/-! ### The word of the sum and of the difference (R102 to R105) -/

/-- The end of R104's block: from the signed total to the packed word. -/
theorem renormalize_exactOfTotal (t : Int) (d : Nat) :
    renormalize (exactOfTotal t d) = pack (decide (t < 0)) (t.natAbs / 10 ^ d) (t.natAbs % 10 ^ d) := rfl

theorem addWord_eq (a b : Word) :
    addWord a b =
      renormalize (exactOfTotal (alignedTotal a (commonPlaces a b) + alignedTotal b (commonPlaces a b))
        (commonPlaces a b)) := by
  rw [addWord, addExact_eq]

theorem subWord_eq (a b : Word) :
    subWord a b =
      renormalize (exactOfTotal (alignedTotal a (commonPlaces a b) - alignedTotal b (commonPlaces a b))
        (commonPlaces a b)) := by
  rw [subWord, subExact_eq]

theorem exec_add (a b : Word) (s : State) :
    exec (.add a b) s = .next { s with rsp := wordRegs (addWord a b) } := exec_eq _ s

theorem exec_sub (a b : Word) (s : State) :
    exec (.sub a b) s = .next { s with rsp := wordRegs (subWord a b) } := exec_eq _ s

/-- Settles O40: the model's word is that of the total of the aligned signed magnitudes, which the statement writes out. -/
theorem addAndSubPackTheSignedTotal : Obligations.AddAndSubPackTheSignedTotal := by
  intro a b s D ma mb ta tb packed
  have hD : commonPlaces a b = D := commonPlaces_eq a b
  have hta : alignedTotal a D = ta := alignedTotal_eq a D
  have htb : alignedTotal b D = tb := alignedTotal_eq b D
  refine ⟨?_, ?_, ?_, ?_⟩
  · rw [exec_add, addWord_eq, hD, hta, htb, renormalize_exactOfTotal]
  · rw [exec_sub, subWord_eq, hD, hta, htb, renormalize_exactOfTotal]
  · rintro r hop rfl rfl
    exact decode_four hop
  · rintro r hop rfl rfl
    exact decode_five hop

/-! ### No negative zero (R106) -/

/-- The filler word of a condition or of a string is the zero that `pack` gives (R51, R156). -/
theorem not_negativeZero_zero : ¬ negativeZero 0 := pack_zero false ▸ not_negativeZero_pack false 0 0

/-- The result word of every engine operation comes from `pack` (R100). -/
theorem not_negativeZero_renormalize (x : Exact) : ¬ negativeZero (renormalize x) :=
  not_negativeZero_pack x.neg x.int x.frac

/-- A response whose result word, if it has one, comes from `pack` leaves no negative zero in the registers. -/
theorem not_negativeZero_regs {x : Response} (h : ∀ w, x = .word w → ∃ neg iv fv, w = pack neg iv fv) :
    ¬ negativeZero x.regs.word := by
  cases x with
  | word w =>
    obtain ⟨neg, iv, fv, rfl⟩ := h w rfl
    exact not_negativeZero_pack neg iv fv
  | string t => exact not_negativeZero_zero
  | condition c => exact not_negativeZero_zero

/-- A word DIV answers comes from `pack`. -/
theorem divResponse_eq_word {a b w : Word} (h : divResponse a b = .word w) : ∃ neg iv fv, w = pack neg iv fv := by
  rcases divResponse_cases a b with ⟨-, e⟩ | ⟨-, -, e⟩ | ⟨-, m, k, -, -, e⟩
  · cases e.symm.trans h
  · cases e.symm.trans h
  · exact ⟨_, _, _, Response.word.inj (h.symm.trans e)⟩

/-- A zero operand adds nothing, whatever its sign bit. -/
theorem alignedTotal_of_valueField_zero {w : Word} (h : valueField w = 0) (d : Nat) : alignedTotal w d = 0 := by
  rw [alignedTotal_eq, (scaled_mag_eq_zero_iff w).2 h, zero_mul, signed_zero]

theorem exactOfTotal_neg (t : Int) (d : Nat) : (exactOfTotal t d).neg = decide (t < 0) := rfl

/-- Settles O28; the two signs of a zero that `pack` has to clear are those of `-1.5 * 0.0` and `0.0 / -5.0`. -/
theorem resultsAreNeverNegativeZero : Obligations.ResultsAreNeverNegativeZero := by
  refine ⟨fun len str => ?_, fun a b => ⟨?_, ?_, ?_, ?_⟩, fun w h => ?_, fun d => ?_, by decide, rfl⟩
  · rw [answer_encode]
    exact not_negativeZero_regs fun _ => encodeResponse_eq_word
  · rw [answer_add]
    exact not_negativeZero_renormalize (addExact a b)
  · rw [answer_sub]
    exact not_negativeZero_renormalize (subExact a b)
  · rw [answer_mul]
    exact not_negativeZero_renormalize (mulExact a b)
  · rw [answer_div]
    exact not_negativeZero_regs fun _ => divResponse_eq_word
  · exact ⟨(scaled_mag_eq_zero_iff w).2 h, alignedTotal_of_valueField_zero h⟩
  · rw [exactOfTotal_neg]
    exact decide_eq_false (lt_irrefl 0)

end Sys2Proof.Machine
end

section
/-! PROOFS. MUL and DIV (spec 43_muldiv.md): R120 to R122 and R124 to R127. -/

namespace Sys2Proof.Machine

/-! ### The word of the product (R120 to R122) -/

theorem exec_mul (a b : Word) (s : State) :
    exec (.mul a b) s = .next { s with rsp := wordRegs (mulWord a b) } := exec_eq _ s

theorem mulExact_neg (a b : Word) : (mulExact a b).neg = xor (signBit a) (signBit b) := rfl

theorem mulWord_eq_pack (a b : Word) :
    mulWord a b = pack (mulExact a b).neg (mulExact a b).int (mulExact a b).frac := rfl

/-- An operand with no fraction adds no fractional digit (R101, R122). -/
theorem scaled_places_of_frac_zero {w : Word} (h : (unpack w).frac = 0) : (scaled w).places = 0 := by
  rw [scaled_places, h, decDigits_zero]

/-- Settles O44: the engine's triple is the product of the scaled integers, cut at the sum of their digit counts. -/
theorem mulPacksTheProduct : Obligations.MulPacksTheProduct := by
  intro a b s D m
  have hm : mulExact a b = exactOf (xor (signBit a) (signBit b)) m D := mulExact_eq a b
  refine ⟨?_, scaled_places_of_frac_zero, ?_⟩
  · rw [exec_mul, mulWord_eq_pack, hm]
    rfl
  · rintro r hop rfl rfl
    exact decode_six hop

/-- Settles O45: `pack` clears the sign it is given exactly when the value field it packs is 0. -/
theorem productSignIsXorOfSigns : Obligations.ProductSignIsXorOfSigns := by
  intro a b
  refine ⟨mulExact_neg a b, ?_⟩
  rw [answer_mul, wordRegs_word, mulWord_eq_pack, signBit_pack, valueField_pack, mulExact_neg]
  simp only [bne, beq_eq_decide, decide_not]

/-! ### The conditions of DIV (R125, R127) -/

theorem exec_div (a b : Word) (s : State) :
    exec (.div a b) s = .next { s with rsp := (divResponse a b).regs } := exec_eq _ s

theorem divResponse_of_zero {b : Word} (hb : valueField b = 0) (a : Word) :
    divResponse a b = .condition .divisionByZero := by
  rw [divResponse, divExact_of_zero hb]

theorem divResponse_of_not_terminates {a b : Word} (hb : valueField b ≠ 0) (ht : ¬ terminates a b) :
    divResponse a b = .condition .inexactQuotient := by
  rw [divResponse, divExact_of_not_terminates hb ht]

/-- Status 2 is answered for a zero divisor and for no other (R125). -/
theorem divResponse_status_eq_two_iff {a b : Word} : (divResponse a b).regs.status = 2 ↔ valueField b = 0 := by
  rcases divResponse_cases a b with ⟨hb, e⟩ | ⟨hb, -, e⟩ | ⟨hb, m, k, -, -, e⟩ <;> rw [e]
  · exact iff_of_true rfl hb
  · exact iff_of_false (by decide : (3 : StatusCode) ≠ 2) hb
  · exact iff_of_false (by decide : (0 : StatusCode) ≠ 2) hb

/-- Status 3 is answered for a divisor that is not zero when the quotient does not terminate, and for nothing else (R127). -/
theorem divResponse_status_eq_three_iff {a b : Word} :
    (divResponse a b).regs.status = 3 ↔ valueField b ≠ 0 ∧ ¬ terminates a b := by
  rcases divResponse_cases a b with ⟨hb, e⟩ | ⟨hb, ht, e⟩ | ⟨-, m, k, hm, -, e⟩ <;> rw [e]
  · exact iff_of_false (by decide : (2 : StatusCode) ≠ 3) fun h => h.1 hb
  · exact iff_of_true rfl ⟨hb, ht⟩
  · exact iff_of_false (by decide : (0 : StatusCode) ≠ 3) fun h => h.2 ⟨m, k, hm⟩

theorem exec_div_of_zero {b : Word} (hb : valueField b = 0) (a : Word) (s : State) :
    exec (.div a b) s = .next { s with rsp := conditionRegs 2 } := by
  rw [exec_div, divResponse_of_zero hb]
  rfl

theorem exec_div_of_not_terminates {a b : Word} (hb : valueField b ≠ 0) (ht : ¬ terminates a b) (s : State) :
    exec (.div a b) s = .next { s with rsp := conditionRegs 3 } := by
  rw [exec_div, divResponse_of_not_terminates hb ht]
  rfl

/-- The state `exec` of DIV answers shows the status of its response. -/
theorem divResponse_status_of_exec {a b : Word} {s : State} {regs : RspRegs}
    (h : exec (.div a b) s = .next { s with rsp := regs }) : (divResponse a b).regs.status = regs.status := by
  rw [exec_div] at h
  exact congrArg (fun t => t.rsp.status) (Host.Outcome.next.inj h)

/-- Settles O47. -/
theorem zeroDivisorRaisesDivisionByZero : Obligations.ZeroDivisorRaisesDivisionByZero := by
  intro a b s
  refine ⟨fun hb => ⟨(scaled_mag_eq_zero_iff b).2 hb, exec_div_of_zero hb a s⟩, fun h => ?_⟩
  rw [answer_div] at h
  exact divResponse_status_eq_two_iff.1 h

/-- Settles O48: the status tells which of DIV's three cases it was; the rule's examples are evaluated. -/
theorem nonTerminatingQuotientRaisesInexact : Obligations.NonTerminatingQuotientRaisesInexact := by
  refine ⟨fun a b s hb => ⟨fun ht => exec_div_of_not_terminates hb ht s, fun h => ?_⟩,
    by decide, by decide, by decide, by decide, by decide⟩
  exact (divResponse_status_eq_three_iff.1 (divResponse_status_of_exec h)).2

/-! ### The fewest digits (R124, R126) -/

theorem exec_div_of_fewest {a b : Word} {m k : Nat} (hb : valueField b ≠ 0) (hm : quotientIs a b m k)
    (hk : ∀ j < k, ¬ ∃ n, quotientIs a b n j) (s : State) :
    exec (.div a b) s =
      .next { s with rsp := wordRegs (pack (xor (signBit a) (signBit b)) (m / 10 ^ k) (m % 10 ^ k)) } := by
  rw [exec_div, divResponse, divExact_of_fewest hb hm hk]
  rfl

/-- A trailing zero of the quotient can be dropped with its digit. -/
theorem quotientIs_of_trailing_zero {a b : Word} {n k : Nat} (h : quotientIs a b (n * 10) (k + 1)) :
    quotientIs a b n k := by
  rw [quotientIs] at h ⊢
  rw [h, pow_succ]
  push_cast
  exact mul_div_mul_right _ _ (by norm_num)

/-- The fraction of a quotient at its fewest digits has no trailing zero (R126). -/
theorem frac_no_trailing_zero_of_fewest {a b : Word} {m k : Nat} (hm : quotientIs a b m k)
    (hk : ∀ j < k, ¬ ∃ n, quotientIs a b n j) : m % 10 ^ k = 0 ∨ m % 10 ^ k % 10 ≠ 0 := by
  cases k with
  | zero => exact .inl (by rw [pow_zero, Nat.mod_one])
  | succ k =>
    refine .inr fun h0 => ?_
    rw [Nat.mod_mod_of_dvd _ (dvd_pow_self 10 k.succ_ne_zero)] at h0
    obtain ⟨n, rfl⟩ := Nat.dvd_of_mod_eq_zero h0
    exact hk k k.lt_succ_self ⟨n, quotientIs_of_trailing_zero (by rwa [mul_comm])⟩

/-- The engine's digit count is the least `k` with `den` dividing `10^k` (R126). -/
theorem divPlaces_isLeast {a b : Word} (hb : valueField b ≠ 0) (ht : terminates a b) :
    IsLeast { k : Nat | reducedDen a b ∣ 10 ^ k } (divPlaces a b) := by
  have hdvd (k : Nat) := dvd_ten_pow_iff (k := k) (reducedDen_pos (a := a) hb)
  exact ⟨(hdvd _).2 ⟨(terminates_iff hb).1 ht, le_rfl⟩, fun k hk => ((hdvd k).1 hk).2⟩

/-- DIV has a triple to pack only for a quotient that terminates, and at that digit count. -/
theorem divExact_eq_ok {a b : Word} {x : Exact} (h : divExact a b = .ok x) :
    valueField b ≠ 0 ∧ terminates a b ∧ x.places = divPlaces a b := by
  rcases divExact_cases a b with ⟨-, e⟩ | ⟨-, -, e⟩ | ⟨hb, m, k, hm, -, -⟩
  · cases e.symm.trans h
  · cases e.symm.trans h
  · have ht : terminates a b := ⟨m, k, hm⟩
    obtain ⟨n, hn, hleast⟩ := exists_fewest hb ht
    cases (divExact_of_fewest hb hn hleast).symm.trans h
    exact ⟨hb, ht, rfl⟩

/-- Settles O49: the three paths of DIV, then the digit count of the one that packs. -/
theorem divGivesFewestDigits : Obligations.DivGivesFewestDigits := by
  refine ⟨fun a b s m k hb hm hk => ⟨exec_div_of_fewest hb hm hk s, frac_no_trailing_zero_of_fewest hm hk⟩,
    fun a b hb ht => ?_, fun a b s => ⟨fun hb => exec_div_of_zero hb a s, fun hb ht => exec_div_of_not_terminates hb ht s⟩,
    fun a b x hx => ?_, by decide, ?_⟩
  · obtain ⟨m, hm, hk⟩ := exists_fewest hb ht
    exact ⟨m, divPlaces a b, hm, hk⟩
  · obtain ⟨hb, ht, hplaces⟩ := divExact_eq_ok hx
    exact ⟨hplaces ▸ divPlaces_isLeast hb ht, hplaces⟩
  · rintro a b r hop rfl rfl
    exact decode_seven hop

end Sys2Proof.Machine
end

section
/-! PROOFS. NEG (spec 44_negate.md): R140. -/

namespace Sys2Proof.Machine

theorem exec_neg (a : Word) (s : State) : exec (.neg a) s = .next { s with rsp := wordRegs (negWord a) } := exec_eq _ s

/-- Bit by bit, the XOR with the sign mask flips bit 26 and keeps every other bit. -/
theorem getLsbD_flipSign (w : Word) (i : Nat) :
    (w ^^^ 0x04000000).getLsbD i = if i = 26 then !w.getLsbD 26 else w.getLsbD i := by
  rw [BitVec.getLsbD_xor, getLsbD_signMask]
  by_cases hi : i = 26
  · rw [if_pos hi, decide_eq_true hi, Bool.xor_true, hi]
  · rw [if_neg hi, decide_eq_false hi, Bool.xor_false]

/-- Settles O53: NEG answers `negWord a`, which for a value other than 0 is the XOR with the sign mask. -/
theorem negFlipsOnlyTheSign : Obligations.NegFlipsOnlyTheSign := by
  intro a s
  refine ⟨?_, fun hvalue i => ?_, ?_⟩
  · rw [exec_neg, negWord]
  · rw [answer_neg, negWord_of_ne_zero hvalue]
    exact getLsbD_flipSign a i
  · rintro r hop rfl
    exact decode_eight hop

end Sys2Proof.Machine
end

section
/-! PROOFS. Conditions (spec 60_exceptions.md): R150 to R154 and R156 to R158. -/

namespace Sys2Proof.Machine

/-! ### Causes (R150, R158) -/

/-- The cause of each condition, as R150's table gives it with R158's priority written in: a string is looked at only
where its length names one, a quotient only where the divisor is not zero. -/
def hasCause (r : Request) : Condition → Prop
  | .malformedNumber => r.op = 0x2 ∧ r.len.toNat ≤ 32 ∧ ¬ accepted (requestString r.len r.str)
  | .divisionByZero => r.op = 0x7 ∧ valueField r.b = 0
  | .inexactQuotient => r.op = 0x7 ∧ valueField r.b ≠ 0 ∧ ¬ terminates r.a r.b
  | .illegalRequest => (r.op = 0x0 ∨ 9 ≤ r.op.toNat) ∨ (r.op = 0x2 ∧ 32 < r.len.toNat)

/-- A request with the cause of a condition is answered with it. -/
theorem requestResponse_of_hasCause {r : Request} {c : Condition} (h : hasCause r c) :
    requestResponse r = .condition c := by
  cases c with
  | malformedNumber =>
    obtain ⟨hop, hlen, hnot⟩ := h
    rw [requestResponse_of_decode (decode_two hop)]
    exact encodeResponse_of_not_accepted hlen hnot
  | divisionByZero =>
    obtain ⟨hop, hb⟩ := h
    rw [requestResponse_of_decode (decode_seven hop)]
    exact divResponse_of_zero hb r.a
  | inexactQuotient =>
    obtain ⟨hop, hb, ht⟩ := h
    rw [requestResponse_of_decode (decode_seven hop)]
    exact divResponse_of_not_terminates hb ht
  | illegalRequest =>
    rcases h with hreserved | ⟨hop, hlong⟩
    · exact requestResponse_of_reserved hreserved
    · rw [requestResponse_of_decode (decode_two hop)]
      exact encodeResponse_of_long hlong r.str

/-- ENCODE raises in two cases: the length names no string, or the string is not accepted (R79). -/
theorem encodeResponse_eq_condition {len : StrLen} {str : Lanes} {c : Condition}
    (h : encodeResponse len str = .condition c) :
    (c = .illegalRequest ∧ 32 < len.toNat) ∨
    (c = .malformedNumber ∧ len.toNat ≤ 32 ∧ ¬ accepted (requestString len str)) := by
  rcases Nat.lt_or_ge 32 len.toNat with hlong | hlen
  · exact .inl ⟨Response.condition.inj (h.symm.trans (encodeResponse_of_long hlong str)), hlong⟩
  · by_cases hacc : accepted (requestString len str)
    · obtain ⟨neg, int, frac, hstr, hparts⟩ := hacc
      cases h.symm.trans (encodeResponse_spelled hlen hstr hparts)
    · exact .inr ⟨Response.condition.inj (h.symm.trans (encodeResponse_of_not_accepted hlen hacc)), hlen, hacc⟩

/-- DIV raises in two cases: the divisor is zero, or it is not and the quotient does not terminate (R124). -/
theorem divResponse_eq_condition {a b : Word} {c : Condition} (h : divResponse a b = .condition c) :
    (c = .divisionByZero ∧ valueField b = 0) ∨
    (c = .inexactQuotient ∧ valueField b ≠ 0 ∧ ¬ terminates a b) := by
  rcases divResponse_cases a b with ⟨hb, e⟩ | ⟨hb, ht, e⟩ | ⟨-, m, k, -, -, e⟩
  · exact .inl ⟨Response.condition.inj (h.symm.trans e), hb⟩
  · exact .inr ⟨Response.condition.inj (h.symm.trans e), hb, ht⟩
  · cases h.symm.trans e

/-- Only ENCODE, DIV and the reserved codes raise; BITLEN, DECODE, ADD, SUB, MUL and NEG raise nothing (R150). -/
theorem op_of_requestResponse_eq_condition {r : Request} {c : Condition} (h : requestResponse r = .condition c) :
    (r.op = 0 ∨ 9 ≤ r.op.toNat) ∨ r.op = 0x2 ∨ r.op = 0x7 := by
  by_cases hreserved : r.op = 0 ∨ 9 ≤ r.op.toNat
  · exact .inl hreserved
  · obtain ⟨hne, hlt⟩ := not_or.1 hreserved
    obtain ⟨i, hd⟩ := exists_instr_of_op (BitVec.toNat_pos_of_ne_zero hne) (by omega)
    rw [requestResponse_of_decode hd] at h
    have hop : r.op = (encode i).op := op_eq_of_decode hd
    cases i with
    | encode len str => exact .inr (.inl hop)
    | div a b => exact .inr (.inr hop)
    | bitlen | decode | add | sub | mul | neg => cases h

/-- A request answered with a condition has its cause. -/
theorem hasCause_of_requestResponse {r : Request} {c : Condition} (h : requestResponse r = .condition c) :
    hasCause r c := by
  rcases op_of_requestResponse_eq_condition h with hreserved | hop | hop
  · cases (requestResponse_of_reserved hreserved).symm.trans h
    exact .inl hreserved
  · rw [requestResponse_of_decode (decode_two hop)] at h
    rcases encodeResponse_eq_condition h with ⟨rfl, hlong⟩ | ⟨rfl, hlen, hnot⟩
    · exact .inr ⟨hop, hlong⟩
    · exact ⟨hop, hlen, hnot⟩
  · rw [requestResponse_of_decode (decode_seven hop)] at h
    rcases divResponse_eq_condition h with ⟨rfl, hb⟩ | ⟨rfl, hb, ht⟩
    · exact ⟨hop, hb⟩
    · exact ⟨hop, hb, ht⟩

theorem requestResponse_eq_condition_iff {r : Request} {c : Condition} :
    requestResponse r = .condition c ↔ hasCause r c :=
  ⟨hasCause_of_requestResponse, requestResponse_of_hasCause⟩

/-! ### The status and the registers of a condition (R156) -/

theorem conditionCode_ne_zero (c : Condition) : conditionCode c ≠ 0 := by cases c <;> decide

theorem conditionCode_injective : Function.Injective conditionCode := by
  intro c d
  cases c <;> cases d <;> decide

/-- The status register names the condition, if there is one. -/
theorem regs_status_eq_conditionCode_iff {x : Response} {c : Condition} :
    x.regs.status = conditionCode c ↔ x = .condition c := by
  cases x with
  | word w => exact iff_of_false (conditionCode_ne_zero c).symm nofun
  | string t => exact iff_of_false (conditionCode_ne_zero c).symm nofun
  | condition d => exact conditionCode_injective.eq_iff.trans (Response.condition.injEq d c).symm.to_iff

theorem regs_eq_conditionRegs_of_status_ne_zero {x : Response} (h : x.regs.status ≠ 0) :
    x.regs = conditionRegs x.regs.status := by
  cases x with
  | word w => exact absurd rfl h
  | string t => exact absurd rfl h
  | condition c => rfl

theorem requestResponse_status_iff (r : Request) (c : Condition) :
    (requestResponse r).regs.status = conditionCode c ↔ hasCause r c :=
  regs_status_eq_conditionCode_iff.trans requestResponse_eq_condition_iff

/-- Settles O16: each code is a condition's, and a request is answered with a condition exactly when it has the cause. -/
theorem statusTellsTheCause : Obligations.StatusTellsTheCause := fun r s =>
  ⟨{ s with rsp := (requestResponse r).regs }, transact_eq r s,
    requestResponse_status_iff r .malformedNumber, requestResponse_status_iff r .divisionByZero,
    requestResponse_status_iff r .inexactQuotient, requestResponse_status_iff r .illegalRequest,
    regs_eq_conditionRegs_of_status_ne_zero, regs_status_toNat_le _⟩

/-! ### After a condition (R156, R157) -/

/-- A transaction leaves the registers of its request's response, and everything else as it was (R157). -/
theorem eq_of_transact {r : Request} {s t : State} (h : transact r s = .next t) :
    t = { s with rsp := (requestResponse r).regs } :=
  (Host.Outcome.next.inj ((transact_eq r s).symm.trans h)).symm

/-- Settles O17: `raise` condition by condition; a status other than 0 comes from a condition alone. -/
theorem conditionLeavesOnlyFiller : Obligations.ConditionLeavesOnlyFiller := by
  intro c s
  refine ⟨by cases c <;> rfl, fun r t h hstatus => ?_⟩
  rw [eq_of_transact h] at hstatus ⊢
  exact regs_eq_conditionRegs_of_status_ne_zero hstatus

/-- Settles O18: the response of the next request does not depend on the registers, which alone changed. -/
theorem failedRequestLeavesNoTrace : Obligations.FailedRequestLeavesNoTrace := by
  intro r next s t h
  rw [eq_of_transact h]
  exact ⟨rfl, by rw [transact_eq, transact_eq]⟩

end Sys2Proof.Machine
end

section
/-! PROOFS. Reset (spec 70_reset_and_hazards.md): R171. -/

namespace Sys2Proof.Machine

theorem valid_of_transact {r : Request} {s t : State} (h : transact r s = .next t) : t.rsp.valid = true := by
  rw [eq_of_transact h]
  exact regs_valid (requestResponse r)

/-- Waiting keeps `rsp.valid` and a transaction sets it, so the step that lowers it serves a reset pulse. -/
theorem step_serves_reset_of_valid_lowered {s t : State} (h : step s = .next t) (hs : s.rsp.valid = true)
    (ht : t.rsp.valid = false) : ∃ cut away rest, s.inputs = .reset cut away :: rest := by
  rcases step_cases s with ⟨-, e⟩ | ⟨r, rest, hin, -⟩ | ⟨cut, away, rest, hin, -⟩
  · cases e.symm.trans h
    cases hs.symm.trans ht
  · rw [step_request hin] at h
    cases (valid_of_transact h).symm.trans ht
  · exact ⟨cut, away, rest, hin⟩

/-- Settles O1: the reset values are read off the table; `rsp.valid` is followed through the three kinds of step. -/
theorem resetClearsResponseRegisters : Obligations.ResetClearsResponseRegisters :=
  ⟨rfl, rfl, rfl, rfl, fun i => zeroLanes_getElem i i.isLt, fun _ _ _ => valid_of_transact,
    fun _ _ => step_serves_reset_of_valid_lowered⟩

end Sys2Proof.Machine
end

section
/-! PROOFS. The machine as a whole: the decoder both ways (spec 30_encoding.md), single steps (spec 10_state.md,
70_reset_and_hazards.md), the invariant of the response registers, and runs over the input list (spec 20_memory.md). -/

namespace Sys2Proof.Machine

/-! ### Decode and encode (R52 to R54) -/

/-- The encoder writes the code of R52 for each operation. -/
theorem decode_encode (i : Instr) : decode (encode i) = .instr i := by
  cases i with
  | bitlen a => exact decode_one rfl
  | encode len str => exact decode_two rfl
  | decode a => exact decode_three rfl
  | add a b => exact decode_four rfl
  | sub a b => exact decode_five rfl
  | mul a b => exact decode_six rfl
  | div a b => exact decode_seven rfl
  | neg a => exact decode_eight rfl

/-- The decoder rejects exactly the reserved codes (R54). -/
theorem decode_eq_reservedOp_iff {r : Request} {op : OpCode} :
    decode r = .reservedOp op ↔ r.op = op ∧ (op = 0x0 ∨ 9 ≤ op.toNat) := by
  constructor
  · intro h
    by_cases hreserved : r.op = 0 ∨ 9 ≤ r.op.toNat
    · obtain rfl : r.op = op := Decoded.reservedOp.inj ((decode_reserved hreserved).symm.trans h)
      exact ⟨rfl, hreserved⟩
    · obtain ⟨hne, hlt⟩ := not_or.1 hreserved
      obtain ⟨i, hi⟩ := exists_instr_of_op (BitVec.toNat_pos_of_ne_zero hne) (by omega)
      cases hi.symm.trans h
  · rintro ⟨rfl, hreserved⟩
    exact decode_reserved hreserved

@[simp] theorem readFields_op (r : Request) : (readFields r).op = r.op := by
  unfold readFields
  split <;> rfl

/-- The fields an operation reads are the ones its instruction carries. -/
theorem readFields_of_decode {r : Request} {i : Instr} (h : decode r = .instr i) : readFields r = encode i := by
  unfold decode at h
  split at h <;> cases h <;> simp [readFields, encode, *]

/-- Zeroing the fields an operation does not read changes nothing for the decoder (R53). -/
theorem decode_readFields (r : Request) : decode (readFields r) = decode r := by
  cases h : decode r with
  | instr i => rw [readFields_of_decode h, decode_encode]
  | reservedOp op =>
    rw [decode_eq_reservedOp_iff] at h ⊢
    rwa [readFields_op]

/-- Settles O12: the decoder sees only the fields read, and `decode` undoes `encode`. -/
theorem decodeAndEncodeAgree : Obligations.DecodeAndEncodeAgree := by
  refine ⟨decode_encode, fun r i => ⟨readFields_of_decode, fun h => ?_⟩, fun r op => decode_eq_reservedOp_iff⟩
  rw [← decode_readFields, h, decode_encode]

/-- Settles O13. -/
theorem writtenRequestsDecode : Obligations.WrittenRequestsDecode :=
  ⟨fun _ _ _ _ => decode_one rfl, fun _ _ _ _ => decode_two rfl, fun _ _ _ _ => decode_three rfl,
    fun _ _ _ _ => decode_four rfl, fun _ _ _ _ => decode_five rfl, fun _ _ _ _ => decode_six rfl,
    fun _ _ _ _ => decode_seven rfl, fun _ _ _ _ => decode_eight rfl⟩

/-! ### The invariant of the response registers (R51, R84, R150, R156, R171) -/

/-- Settles O3. -/
theorem resetRegistersAreConsistent : Obligations.ResetRegistersAreConsistent := by
  unfold Obligations.ResetRegistersAreConsistent
  decide

/-- The length register counts a string shorter than 64 bytes whole. -/
theorem stringRegs_len_toNat {t : List Byte} (h : t.length < 64) : (stringRegs t).len.toNat = t.length := by
  rw [stringRegs_len, BitVec.toNat_ofNat, Nat.mod_eq_of_lt h]

/-- The length register after DECODE (R84). -/
theorem decode_len_toNat (w : Word) : (stringRegs (decodeString w)).len.toNat = (decodeString w).length :=
  stringRegs_len_toNat ((length_decodeString_le w).trans_lt (by decide))

/-- Only DECODE leaves a length other than 0: that of its string, with no word beside it (R51, R84). -/
theorem requestResponse_string_shape {r : Request} (h : (requestResponse r).regs.len ≠ 0) :
    (requestResponse r).regs.word = 0 ∧ 3 ≤ (requestResponse r).regs.len.toNat ∧
      (requestResponse r).regs.len.toNat ≤ 11 := by
  by_cases hop : r.op = 0x3
  · have hregs : (requestResponse r).regs = stringRegs (decodeString r.a) := by
      rw [requestResponse_of_decode (decode_three hop)]
      rfl
    rw [hregs, decode_len_toNat]
    exact ⟨rfl, length_decodeString_ge r.a, length_decodeString_le r.a⟩
  · exact absurd (regs_no_string (requestResponse_ne_string hop)).1 h

/-- Whatever the request, the registers its response leaves meet the invariant. -/
theorem consistent_requestResponse (r : Request) : (requestResponse r).regs.Consistent := by
  refine ⟨regs_status_toNat_le _, fun hstatus => ?_, fun k => requestResponse_lane_beyond r,
    requestResponse_string_shape, fun hvalid => ?_⟩
  · obtain ⟨hword, hlen, -⟩ := regs_filler_of_status_ne_zero hstatus
    exact ⟨hword, hlen⟩
  · cases (regs_valid _).symm.trans hvalid

/-- Settles O4: an idle step keeps the registers, a request leaves those of its response, a reset pulse the reset values. -/
theorem stepKeepsRegistersConsistent : Obligations.StepKeepsRegistersConsistent := by
  intro s t hs h
  rcases step_cases s with ⟨-, e⟩ | ⟨r, rest, -, e⟩ | ⟨cut, away, rest, -, e⟩ <;> cases e.symm.trans h
  · exact hs
  · exact consistent_requestResponse r
  · exact resetRegistersAreConsistent

/-! ### Single steps -/

/-- Settles O2: after the pulse the next request meets the registers of reset. -/
theorem resetPulseAbandonsTransaction : Obligations.ResetPulseAbandonsTransaction := by
  intro s cut away rest hs
  refine ⟨step_reset hs, fun r rest' t hrest ht => ?_⟩
  cases (step_reset hs).symm.trans ht
  exact step_request hrest

/-- Settles O6. -/
theorem stepRunsDecodedInstruction : Obligations.StepRunsDecodedInstruction := by
  intro s r rest hs
  rw [step_request hs]
  refine ⟨fun i hi => transact_of_decode hi _, fun op hop => ?_⟩
  rw [transact, hop]
  rfl

/-- Settles O7. -/
theorem idleBlockKeepsItsState : Obligations.IdleBlockKeepsItsState := fun _ => step_idle

/-- Settles O9: the response does not look at the state, so `answer`, taken right after reset, is the same from any. -/
theorem execAnswersFromOperandsAlone : Obligations.ExecAnswersFromOperandsAlone := fun i s => by
  rw [exec_eq, answer_eq]

/-! ### Runs over the input list (R45, R175; log 1) -/

/-- A step with an input waiting consumes that input and no other. -/
theorem exists_step_of_inputs_cons {s : State} {x : HostInput} {rest : List HostInput} (h : s.inputs = x :: rest) :
    ∃ t, step s = .next t ∧ t.inputs = rest := by
  cases x with
  | request r => exact ⟨_, (step_request h).trans (transact_eq r _), rfl⟩
  | reset cut away => exact ⟨_, step_reset h, rfl⟩

/-- A run as long as the list of waiting inputs serves them all. -/
theorem exists_run_of_inputs (inputs : List HostInput) (s : State) (h : s.inputs = inputs) :
    ∃ t : State, Sys2Proof.core.run inputs.length s = .next t ∧ t.inputs = [] := by
  induction inputs generalizing s with
  | nil => exact ⟨s, rfl, h⟩
  | cons x rest ih =>
    obtain ⟨t, ht, hrest⟩ := exists_step_of_inputs_cons h
    rw [List.length_cons, run_succ_of_next ht]
    exact ih t hrest

/-- Settles O5. -/
theorem everyPresentedInputIsServed : Obligations.EveryPresentedInputIsServed :=
  fun s => exists_run_of_inputs s.inputs s rfl

/-- A run over requests ends with the response to the last of them. -/
theorem run_requests (earlier : List Request) (r : Request) (rest : List HostInput) (s : State)
    (h : s.inputs = earlier.map .request ++ .request r :: rest) :
    Sys2Proof.core.run (earlier.length + 1) s = .next { rsp := (requestResponse r).regs, inputs := rest } := by
  induction earlier generalizing s with
  | nil =>
    rw [List.length_nil, run_succ_of_next ((step_request h).trans (transact_eq r _))]
    rfl
  | cons q earlier ih =>
    rw [List.length_cons, run_succ_of_next ((step_request h).trans (transact_eq q _))]
    exact ih _ rfl

/-- Settles O10: the function is that of O8, `requestResponse` written out as registers. -/
theorem runLeavesResponseToLatestRequest : Obligations.RunLeavesResponseToLatestRequest :=
  ⟨fun r => (requestResponse r).regs, transact_eq, run_requests⟩

end Sys2Proof.Machine
end

section
/-! PROOFS. The codec round trips (spec 41_codec.md): R84 to R86. -/

namespace Sys2Proof.Machine

/-! ### Printing a repacked word -/

/-- What `pack` makes of a triple that fits is printed as the triple's canonical spelling, but for a zero's sign (R82, R87). -/
theorem decodeString_pack {neg : Bool} {iv fv : Nat} (h : fits iv fv) (hz : ¬(neg = true ∧ iv = 0 ∧ fv = 0)) :
    decodeString (pack neg iv fv) = canonicalSpelling neg iv fv := by
  have hsign : (neg && !decide (iv = 0 ∧ fv = 0)) = neg := by
    cases neg with
    | false => rfl
    | true => rw [decide_eq_false fun h0 => hz ⟨rfl, h0⟩]; rfl
  rw [decodeString_eq, ← unpack_neg, unpack_pack neg h, hsign]

theorem not_negativeZero_iff (w : Word) :
    ¬ negativeZero w ↔ ¬(signBit w = true ∧ (unpack w).int = 0 ∧ (unpack w).frac = 0) := by
  rw [unpack_eq_zero_iff]

/-- Repacking keeps the printed string of every word but a negative zero (R85). -/
theorem decodeString_canonicalWord {w : Word} (h : ¬ negativeZero w) :
    decodeString (canonicalWord w) = decodeString w := by
  rw [canonicalWord, unpack_neg, decodeString_pack (fits_unpack w) ((not_negativeZero_iff w).1 h), decodeString_eq]

/-- A word whose value field is 0 repacks to 0, whatever its pointer and sign. -/
theorem canonicalWord_of_valueField_zero {w : Word} (h : valueField w = 0) : canonicalWord w = 0 := by
  obtain ⟨hint, hfrac⟩ := (unpack_eq_zero_iff w).2 h
  rw [canonicalWord, hint, hfrac, pack_zero]

/-- A negative zero prints with its sign (R90). -/
theorem decodeString_negativeZero {w : Word} (h : negativeZero w) : decodeString w = [0x2D, 0x30, 0x2E, 0x30] := by
  obtain ⟨hsign, hvalue⟩ := h
  obtain ⟨hint, hfrac⟩ := (unpack_eq_zero_iff w).2 hvalue
  rw [decodeString_eq, hsign, hint, hfrac]
  rfl

/-! ### DECODE, then ENCODE (R85) -/

/-- ENCODE's response to the registers DECODE leaves. -/
theorem encodeResponse_decode (w : Word) :
    encodeResponse (stringRegs (decodeString w)).len (stringRegs (decodeString w)).str = .word (canonicalWord w) := by
  have hlen : (stringRegs (decodeString w)).len.toNat ≤ 32 := by
    rw [decode_len_toNat]
    exact (length_decodeString_le w).trans (by decide)
  refine encodeResponse_of_some hlen ?_
  rw [requestString_decode, encodeString_decodeString]

/-- Settles O37: the word that comes back is `canonicalWord w`. -/
theorem decodeThenEncodeGivesWordBack : Obligations.DecodeThenEncodeGivesWordBack := by
  intro w s
  refine ⟨{ s with rsp := stringRegs (decodeString w) }, { s with rsp := wordRegs (canonicalWord w) }, exec_decode w s, ?_,
    rfl, wellFormed_canonicalWord w, canonicalWord_of_wellFormed, fun hz => ?_, fun hz => ⟨?_, ?_⟩⟩
  · rw [exec_encode, encodeResponse_decode]
    rfl
  · rw [answer_decode, wordRegs_word, decodeString_canonicalWord hz]
  · rw [decodeString_negativeZero hz]
  · exact canonicalWord_of_valueField_zero hz.2

/-! ### ENCODE, then DECODE (R86) -/

/-- ENCODE answers status 0 with the word of an accepted string, and with nothing else. -/
theorem encodeResponse_status_zero_iff {len : StrLen} {str : Lanes} (h : len.toNat ≤ 32) :
    (encodeResponse len str).regs.status = 0 ↔
      ∃ w, encodeString (requestString len str) = some w ∧ (encodeResponse len str).regs = wordRegs w := by
  cases hs : encodeString (requestString len str) with
  | some w =>
    rw [encodeResponse_of_some h hs]
    exact iff_of_true rfl ⟨w, rfl, rfl⟩
  | none =>
    rw [encodeResponse_of_none h hs]
    exact iff_of_false (by decide) nofun

/-- Running ENCODE and then DECODE on the word it answers, as a fact about the strings alone. -/
theorem exec_encode_decode_iff {len : StrLen} {str : Lanes} (h : len.toNat ≤ 32) (s : State) (P : List Byte → Prop) :
    (∃ t u, exec (.encode len str) s = .next t ∧ t.rsp.status = 0 ∧ exec (.decode t.rsp.word) t = .next u ∧
        P (requestString u.rsp.len u.rsp.str)) ↔
      ∃ w, encodeString (requestString len str) = some w ∧ P (decodeString w) := by
  constructor
  · rintro ⟨t, u, ht, hstatus, hu, hP⟩
    cases (exec_encode len str s).symm.trans ht
    obtain ⟨w, hw, hregs⟩ := (encodeResponse_status_zero_iff h).1 hstatus
    cases (exec_decode _ _).symm.trans hu
    simp only [hregs, wordRegs_word, requestString_decode] at hP
    exact ⟨w, hw, hP⟩
  · rintro ⟨w, hw, hP⟩
    have hexec : exec (.encode len str) s = .next { s with rsp := wordRegs w } := by
      rw [exec_encode, encodeResponse_of_some h hw]
      rfl
    exact ⟨_, _, hexec, rfl, exec_decode w _, by rwa [requestString_decode]⟩

/-- DECODE prints a string that round-trips for every word but a negative zero. -/
theorem roundTrips_decodeString {w : Word} (h : ¬ negativeZero w) : roundTrips (decodeString w) :=
  ⟨signBit w, (unpack w).int, (unpack w).frac, decodeString_eq w, fits_unpack w, (not_negativeZero_iff w).1 h⟩

/-- ENCODE's word for an accepted string prints as a string that round-trips. -/
theorem roundTrips_decodeString_of_encodeString {s : List Byte} {w : Word} (h : encodeString s = some w) :
    roundTrips (decodeString w) := by
  obtain ⟨neg, int, frac, -, -, rfl⟩ := encodeString_eq_some h
  exact roundTrips_decodeString (not_negativeZero_pack _ _ _)

/-- The round-trip law on strings. -/
theorem roundTrips_iff (s : List Byte) : roundTrips s ↔ ∃ w, encodeString s = some w ∧ decodeString w = s := by
  constructor
  · rintro ⟨neg, iv, fv, rfl, hfits, hz⟩
    obtain ⟨hiv, hfv⟩ := lt_of_fits hfits
    exact ⟨pack neg iv fv, encodeString_canonicalSpelling neg (by omega) (by omega), decodeString_pack hfits hz⟩
  · rintro ⟨w, hw, rfl⟩
    exact roundTrips_decodeString_of_encodeString hw

/-- Settles O38: the run over the two instructions is the round trip on strings. -/
theorem roundTripKeepsExactlyCanonicalStrings : Obligations.RoundTripKeepsExactlyCanonicalStrings := by
  intro len str s hlen
  rw [exec_encode_decode_iff hlen s (· = requestString len str), exec_encode_decode_iff hlen s roundTrips]
  refine ⟨roundTrips_iff _, fun hacc => ?_⟩
  obtain ⟨w, hw⟩ := (encodeString_isSome_iff _).2 hacc
  exact ⟨w, hw, roundTrips_decodeString_of_encodeString hw⟩

/-! ### The shape of DECODE's string (R84) -/

/-- Only the numeral of 0 starts with a zero. -/
theorem decStr_of_head_zero {n : Nat} (h : (decStr n).head? = some 0x30) : decStr n = [0x30] := by
  rcases Nat.eq_zero_or_pos n with rfl | hpos
  · exact decStr_zero
  · exact absurd h (head_decStr_ne_zero hpos)

/-- Settles O35; both ends of the length are reached by the words the statement names. -/
theorem decodeOutputShape : Obligations.DecodeOutputShape := by
  refine ⟨fun a => ?_, by decide, by decide, by decide⟩
  rw [answer_decode, requestString_decode, decode_len_toNat]
  refine ⟨signBit a, decStr (unpack a).int, decStr (unpack a).frac, decodeString_eq a, digitRun_decStr _, digitRun_decStr _,
    decStr_of_head_zero, decStr_of_head_zero, ?_, length_decodeString_ge a, length_decodeString_le a⟩
  rw [length_decStr, length_decStr]
  exact decDigits_add_le a

end Sys2Proof.Machine
end

section
/-! PROOFS. Numerals and words as numbers (spec 00_scope.md section 4, 10_state.md): R9, R29 and R30. -/

namespace Sys2Proof.Machine

/-! ### Decimal printing (R9, R83) -/

theorem length_decStr_of_pos {n : Nat} (h : 0 < n) : (decStr n).length = decDigits n := by
  rw [length_decStr, max_eq_right (decDigits_pos h)]

/-- Settles O31. -/
theorem decimalPrintingReadsBack : Obligations.DecimalPrintingReadsBack :=
  ⟨decDigits_zero, decStr_zero,
    fun n hpos => ⟨ten_pow_le_of_pos hpos, lt_ten_pow_decDigits n, length_decStr_of_pos hpos, head_decStr_ne_zero hpos⟩,
    fun n => ⟨digitRun_decStr n, numeral_decStr n⟩⟩

/-! ### The number a word denotes (R29) -/

/-- The number of a word from its scaled integer, for words written out. -/
theorem wordVal_of_scaled {w : Word} {neg : Bool} {m d : Nat} (h : scaled w = ⟨neg, m, d⟩) :
    wordVal w = signFactor neg * (m / 10 ^ d) := by
  rw [wordVal_eq, ← scaled_neg, h]

/-- A printed fraction stands for as many places as it has digits; that of 0 has one digit more than `dec_digits`, which
changes nothing. -/
theorem frac_div_length (n : Nat) : (n : ℚ) / 10 ^ (decStr n).length = n / 10 ^ decDigits n := by
  rcases Nat.eq_zero_or_pos n with rfl | hpos
  · simp
  · rw [length_decStr_of_pos hpos]

theorem wordVal_eq_printed (w : Word) :
    wordVal w = signFactor (signBit w) *
      (numeral (decStr (unpack w).int) + numeral (decStr (unpack w).frac) / 10 ^ (decStr (unpack w).frac).length) := by
  rw [numeral_decStr, numeral_decStr, frac_div_length]
  rfl

/-- Settles O36: the two digit runs are the ones DECODE prints; the rule's examples are evaluated. -/
theorem valueIsThePrintedNumeral : Obligations.ValueIsThePrintedNumeral := by
  refine ⟨fun w => ⟨decStr (unpack w).int, decStr (unpack w).frac, digitRun_decStr _, digitRun_decStr _, ?_,
    wordVal_eq_printed w⟩, fun w => ⟨wordVal_eq_zero_iff w, unpack_eq_zero_iff w⟩, ?_, ?_, ?_, ?_, ?_⟩
  · rw [answer_decode, decodeString_eq, canonicalSpelling]
  · rw [wordVal_of_scaled (show scaled 0x380001FD = ⟨false, 3125, 3⟩ by decide)]
    norm_num [signFactor]
  · rw [wordVal_of_scaled (show scaled 0x10000003 = ⟨false, 3, 1⟩ by decide)]
    norm_num [signFactor]
  · rw [wordVal_of_scaled (show scaled 0x2800001E = ⟨false, 30, 2⟩ by decide)]
    norm_num [signFactor]
  · rw [wordVal_of_scaled (show scaled 0x34000322 = ⟨true, 1234, 2⟩ by decide)]
    norm_num [signFactor]
  · exact (wordVal_eq_zero_iff _).2 (by decide)

/-! ### Equality of words (R30) -/

/-- The string registers hold the printed string whole. -/
theorem stringRegs_decode_injective {a b : Word} (h : stringRegs (decodeString a) = stringRegs (decodeString b)) :
    decodeString a = decodeString b := by
  rw [← requestString_decode a, h, requestString_decode]

/-- Words that print alike repack alike. -/
theorem canonicalWord_eq_of_decodeString_eq {a b : Word} (h : decodeString a = decodeString b) :
    canonicalWord a = canonicalWord b := by
  have henc := encodeString_decodeString a
  rw [h, encodeString_decodeString] at henc
  exact (Option.some.inj henc).symm

/-- Settles O29: a well-formed word is read back from its string. -/
theorem wordEqualityIsFinerThanValue : Obligations.WordEqualityIsFinerThanValue := by
  refine ⟨fun a b ha hb => ⟨fun h => h ▸ rfl, fun h => ?_⟩, fun a b => ⟨fun h _ => h ▸ rfl, fun h => ?_⟩, ?_, by decide,
    by decide, by decide⟩
  · rw [answer_decode, answer_decode] at h
    rw [← canonicalWord_of_wellFormed ha, ← canonicalWord_of_wellFormed hb]
    exact canonicalWord_eq_of_decodeString_eq (stringRegs_decode_injective h)
  · exact BitVec.eq_of_getLsbD_eq fun i _ => h i
  · rw [wordVal_of_scaled (show scaled 0x10000003 = ⟨false, 3, 1⟩ by decide),
      wordVal_of_scaled (show scaled 0x2800001E = ⟨false, 30, 2⟩ by decide)]
    norm_num

end Sys2Proof.Machine
end

section
/-! PROOFS. The bit length (spec 40_bitlength.md) and the 26-bit budget (spec 41_codec.md section 4, 10_state.md): R26, R72,
R87 and R89. -/

namespace Sys2Proof.Machine

/-! ### Bit length (R72) -/

/-- The 26-bit limit as a number. -/
theorem bitLength_le_26_iff (n : Nat) : bitLength n ≤ 26 ↔ n ≤ 67108863 := by
  rw [bitLength_le_iff]
  omega

/-- The low `bitLength n` bits of a shift and OR are `n`, since `n` fits below the shifted part. -/
theorem shift_or_mod_bitLength (x n : Nat) : ((x <<< bitLength n) ||| n) % 2 ^ bitLength n = n := by
  have hlt := lt_two_pow_bitLength n
  rw [Nat.shiftLeft_eq, mul_comm, ← Nat.two_pow_add_eq_or_of_lt hlt, Nat.mul_add_mod, Nat.mod_eq_of_lt hlt]

/-- Settles O21. -/
theorem bitLengthBoundsItsArgument : Obligations.BitLengthBoundsItsArgument :=
  ⟨fun _ _ => bitLength_eq_iff_of_pos, fun _ _ => bitLength_mono, fun _ _ h => (Nat.mod_eq_of_lt h).symm,
    shift_or_mod_bitLength, bitLength_le_26_iff⟩

/-! ### Well-formed words (R26) -/

/-- Settles O25: `pack` of the parts of a word is always well-formed, so a word it gives back is. -/
theorem wellFormedIffRepackedUnchanged : Obligations.WellFormedIffRepackedUnchanged := by
  refine ⟨wordWellFormed_iff, fun w => ⟨pack_unpack_of_wellFormed, fun h => ?_⟩, by decide, by decide, by decide, by decide⟩
  rw [← h]
  exact wellFormed_canonicalWord w

/-! ### Within the budget (R87) -/

theorem bitLength_frac_le_of_fits {iv fv : Nat} (h : fits iv fv) : bitLength fv ≤ 26 :=
  (Nat.le_add_left _ _).trans h

/-- A fraction alone fits up to `2^26 - 1`. -/
theorem fits_zero_iff (fv : Nat) : fits 0 fv ↔ fv ≤ 67108863 := by
  rw [← bitLength_le_26_iff, fits, bitLength_zero, Nat.zero_add]

/-- Settles O24: the laws of a triple that fits, then the rule's examples. -/
theorem packIsLosslessWithinBudget : Obligations.PackIsLosslessWithinBudget := by
  refine ⟨fun neg iv fv h => ⟨unpack_pack neg h, pointerField_pack_of_fits neg h, bitLength_frac_le_of_fits h,
    wellFormed_pack neg h⟩, by decide, by decide, by decide, by decide, by decide, by decide, by decide, fun fv hlt => ?_,
    fun fv _ _ => fits_zero_iff fv⟩
  exact bitLength_le_iff.2 (hlt.trans (by norm_num))

/-! ### Outside the budget (R89) -/

/-- The pointer field holds a bit length of up to 31 whole. -/
theorem pointerField_pack_of_le (neg : Bool) (iv : Nat) {fv : Nat} (h : bitLength fv ≤ 31) :
    pointerField (pack neg iv fv) = bitLength fv := by
  rw [pointerField_pack, Nat.mod_eq_of_lt (Nat.lt_succ_of_le h)]

/-- The fraction is intact as long as the pointer is not clamped. -/
theorem unpack_frac_pack (neg : Bool) (iv : Nat) {fv : Nat} (h : bitLength fv ≤ 26) :
    (unpack (pack neg iv fv)).frac = fv := by
  rw [unpack_frac, pointerField_pack_of_le neg iv (h.trans (by decide)), min_eq_left h, valueField_pack, packValue_eq,
    Nat.mod_mod_of_dvd _ (pow_dvd_pow 2 h), mul_comm, Nat.mul_add_mod, Nat.mod_eq_of_lt (lt_two_pow_bitLength fv)]

/-- The integer part keeps the bits that the fraction leaves room for. -/
theorem unpack_int_pack (neg : Bool) (iv : Nat) {fv : Nat} (h : bitLength fv ≤ 26) :
    (unpack (pack neg iv fv)).int = iv % 2 ^ (26 - bitLength fv) := by
  have hsplit : 2 ^ 26 = 2 ^ bitLength fv * 2 ^ (26 - bitLength fv) := by
    rw [← pow_add, Nat.add_sub_cancel' h]
  rw [unpack_int, pointerField_pack_of_le neg iv (h.trans (by decide)), min_eq_left h, valueField_pack, packValue_eq, hsplit,
    Nat.mod_mul_right_div_self, mul_comm iv, Nat.mul_add_div (by positivity),
    Nat.div_eq_of_lt (lt_two_pow_bitLength fv), add_zero]

/-- A fraction of 26 bits or more pushes the whole integer part out of the value field. -/
theorem valueField_pack_of_wide (neg : Bool) (iv : Nat) {fv : Nat} (h : 26 ≤ bitLength fv) :
    valueField (pack neg iv fv) = fv % 2 ^ 26 := by
  have hdvd : 2 ^ 26 ∣ iv * 2 ^ bitLength fv := Dvd.dvd.mul_left (pow_dvd_pow 2 h) iv
  rw [valueField_pack, packValue_eq, Nat.add_mod, Nat.mod_eq_zero_of_dvd hdvd, zero_add, Nat.mod_mod]

/-- A pointer of 27 to 31 is kept, breaks R26's first condition, and reads as 26: the word is all fraction. -/
theorem pack_of_pointer_27_to_31 (neg : Bool) (iv : Nat) {fv : Nat} (h27 : 27 ≤ bitLength fv) (h31 : bitLength fv ≤ 31) :
    let w := pack neg iv fv
    pointerField w = bitLength fv ∧ valueField w = fv % 2 ^ 26 ∧ wordWellFormed w = false ∧
      (unpack w).int = 0 ∧ (unpack w).frac = fv % 2 ^ 26 := by
  intro w
  have hptr : pointerField w = bitLength fv := pointerField_pack_of_le neg iv h31
  have hvalue : valueField w = fv % 2 ^ 26 := valueField_pack_of_wide neg iv (by omega)
  obtain ⟨hint, hfrac⟩ := unpack_of_clamp_top (w := w) (by omega)
  refine ⟨hptr, hvalue, Bool.eq_false_iff.2 fun hwf => ?_, hint, hfrac.trans hvalue⟩
  have := ((wordWellFormed_iff w).1 hwf).1
  omega

/-- Settles O27: the three ranges of the pointer, then the rule's examples, evaluated. -/
theorem outsideBudgetHighBitsAreDropped : Obligations.OutsideBudgetHighBitsAreDropped := by
  refine ⟨fun neg iv fv _ => ⟨fun h26 => ⟨pointerField_pack_of_le neg iv (h26.trans (by decide)),
      unpack_frac_pack neg iv h26, unpack_int_pack neg iv h26⟩,
    pack_of_pointer_27_to_31 neg iv, fun h32 => ⟨pointerField_pack neg iv fv, valueField_pack_of_wide neg iv (by omega)⟩⟩,
    by decide, by decide, by decide, by decide, by decide, by decide, by decide, by decide⟩

end Sys2Proof.Machine
end

section
/-! PROOFS. The laws of ADD, SUB and MUL and the sizes in the engine (spec 42_addsub.md section 3, 43_muldiv.md): R107 to
R110, R123 and R131. -/

namespace Sys2Proof.Machine

/-! ### Words without an aligned part: 0 and 1 -/

theorem scaled_word_zero : scaled 0x00000000 = ⟨false, 0, 0⟩ := by decide
theorem scaled_word_one : scaled 0x00000001 = ⟨false, 1, 0⟩ := by decide

/-! ### ADD and SUB (R109) -/

theorem commonPlaces_comm (a b : Word) : commonPlaces a b = commonPlaces b a := max_comm _ _

theorem addWord_comm (a b : Word) : addWord a b = addWord b a := by
  rw [addWord_eq, addWord_eq, commonPlaces_comm a b, add_comm]

/-- SUB is ADD of the negation: NEG negates the aligned total and keeps the digit count (R142). -/
theorem addWord_negWord (a b : Word) : addWord a (negWord b) = subWord a b := by
  have hplaces : commonPlaces a (negWord b) = commonPlaces a b := by
    rw [commonPlaces_eq, commonPlaces_eq, scaled_negWord_places]
  rw [addWord_eq, subWord_eq, hplaces, alignedTotal_negWord, sub_eq_add_neg]

theorem subWord_self (a : Word) : subWord a a = 0 := by
  rw [subWord_eq, sub_self]
  exact renormalize_exactOf_zero _ _

/-- A signed total packs as its magnitude with its sign; where the magnitude is 0 the sign does not matter. -/
theorem renormalize_exactOfTotal_signed (neg : Bool) (m d : Nat) :
    renormalize (exactOfTotal (signed neg m) d) = renormalize (exactOf neg m d) := by
  rw [exactOfTotal, natAbs_signed]
  exact renormalize_congr fun hm => signed_neg_iff hm

/-- Cutting a word's scaled integer at its own digit count and packing it repacks the word. -/
theorem renormalize_exactOf_scaled (w : Word) :
    renormalize (exactOf (signBit w) (scaled w).mag (scaled w).places) = canonicalWord w := by
  obtain ⟨hint, hfrac⟩ := scaled_mag_split w
  rw [canonicalWord, ← hint, ← hfrac]
  rfl

/-- Adding 0 repacks the word. -/
theorem addWord_zero (a : Word) : addWord a 0x00000000 = canonicalWord a := by
  have hplaces : commonPlaces a 0x00000000 = (scaled a).places := by
    rw [commonPlaces_eq, scaled_word_zero]
    exact Nat.max_zero _
  have hzero : alignedTotal 0x00000000 (scaled a).places = 0 := alignedTotal_of_valueField_zero (by decide) _
  rw [addWord_eq, hplaces, hzero, add_zero, alignedTotal_eq, Nat.sub_self, pow_zero, mul_one,
    renormalize_exactOfTotal_signed, renormalize_exactOf_scaled]

/-- Settles O41; the sum that depends on its brackets runs out of the budget on one side: `67108863.0 + 1.0 + -1.0`. -/
theorem addAndSubLaws : Obligations.AddAndSubLaws := by
  refine ⟨fun a b => ?_, fun a => ?_, fun a => ?_, fun a ha => ?_, fun a ha => ?_, fun a b => ?_,
    0x03FFFFFF, 0x00000001, 0x04000001, by decide⟩
  · rw [answer_add, answer_add, addWord_comm]
  · rw [answer_sub, subWord_self]
  · rw [answer_add, addWord_zero, canonicalWord]
  · rw [answer_add, addWord_zero, canonicalWord_of_wellFormed ha]
  · rw [answer_add, wordRegs_word, addWord_zero, answer_decode, answer_decode, decodeString_canonicalWord ha]
  · rw [answer_sub, answer_add, answer_neg, wordRegs_word, addWord_negWord]

/-! ### When a packed triple denotes its number (R110) -/

theorem abs_exact_val (x : Exact) : |x.val| = x.int + x.frac / 10 ^ x.places := by
  rw [Exact.val, abs_mul, abs_signFactor, one_mul, abs_of_nonneg (by positivity)]

theorem abs_wordVal_renormalize {x : Exact} (h : fits x.int x.frac) :
    |wordVal (renormalize x)| = x.int + x.frac / 10 ^ decDigits x.frac := by
  rw [renormalize, wordVal_pack_of_fits _ h, abs_mul, abs_signFactor, one_mul, abs_of_nonneg (by positivity)]

/-- A fraction with a leading zero is stored without it, so the word denotes more. -/
theorem abs_val_lt_of_leading_zero {x : Exact} (hlt : x.frac < 10 ^ x.places) (hfits : fits x.int x.frac)
    (hlead : ¬ x.fullFraction) : |x.val| < |wordVal (renormalize x)| := by
  obtain ⟨hne, hdigits⟩ := not_or.1 hlead
  have hpos : (0 : ℚ) < x.frac := by exact_mod_cast Nat.pos_of_ne_zero hne
  have hfewer : decDigits x.frac < x.places := lt_of_le_of_ne (decDigits_le_iff.2 hlt) hdigits
  rw [abs_exact_val, abs_wordVal_renormalize hfits]
  gcongr
  norm_num

/-- A fraction that is kept has all its digits. -/
theorem decDigits_frac_renormalize {x : Exact} (hfits : fits x.int x.frac) (hne : x.frac ≠ 0) (hfull : x.fullFraction) :
    decDigits (unpack (renormalize x)).frac = x.places := by
  rw [renormalize, unpack_pack _ hfits]
  exact hfull.resolve_left hne

/-- Settles O42: ADD and SUB pack a triple of the exact value, and the rest is about packing a triple. -/
theorem addAndSubExactness : Obligations.AddAndSubExactness := by
  intro a b i x v h
  obtain ⟨hval, hplaces, hlt, hanswer⟩ : x.val = v ∧ x.places = max (scaled a).places (scaled b).places ∧
      x.frac < 10 ^ x.places ∧ answer i = wordRegs (renormalize x) := by
    rcases h with ⟨rfl, rfl, rfl⟩ | ⟨rfl, rfl, rfl⟩
    · exact ⟨addExact_val a b, addExact_places a b, addExact_frac_lt a b, answer_add a b⟩
    · exact ⟨subExact_val a b, subExact_places a b, subExact_frac_lt a b, answer_sub a b⟩
  rw [hanswer, wordRegs_word, ← hval]
  exact ⟨rfl, hplaces, rfl, wordVal_renormalize_iff hlt, abs_val_lt_of_leading_zero hlt, decDigits_frac_renormalize⟩

/-! ### Operands count only by their parts (R108) -/

theorem addWord_canonical (a b : Word) : addWord (canonicalWord a) (canonicalWord b) = addWord a b := by
  rw [addWord_eq, addWord_eq, commonPlaces_canonical, alignedTotal_canonical, alignedTotal_canonical]

theorem subWord_canonical (a b : Word) : subWord (canonicalWord a) (canonicalWord b) = subWord a b := by
  rw [subWord_eq, subWord_eq, commonPlaces_canonical, alignedTotal_canonical, alignedTotal_canonical]

/-- Repacking changes the sign of a product or quotient only where an operand is 0. -/
theorem crossSign_canonical {a b : Word} (ha : (scaled a).mag ≠ 0) (hb : (scaled b).mag ≠ 0) :
    crossSign (canonicalWord a) (canonicalWord b) = crossSign a b := by
  rw [crossSign, crossSign, scaled_neg, scaled_neg, scaled_neg, scaled_neg, signBit_canonical_of_mag ha,
    signBit_canonical_of_mag hb]

theorem mulWord_eq (a b : Word) :
    mulWord a b =
      renormalize (exactOf (crossSign a b) ((scaled a).mag * (scaled b).mag) ((scaled a).places + (scaled b).places)) := rfl

theorem mulWord_canonical (a b : Word) : mulWord (canonicalWord a) (canonicalWord b) = mulWord a b := by
  rw [mulWord_eq, mulWord_eq, mag_canonical, mag_canonical, places_canonical, places_canonical]
  refine renormalize_congr fun hm => ?_
  obtain ⟨ha, hb⟩ := mul_ne_zero_iff.1 hm
  exact crossSign_canonical ha hb

theorem quotientNum_canonical (a b : Word) : quotientNum (canonicalWord a) (canonicalWord b) = quotientNum a b := by
  rw [quotientNum, quotientNum, mag_canonical, places_canonical]

theorem quotientDen_canonical (a b : Word) : quotientDen (canonicalWord a) (canonicalWord b) = quotientDen a b := by
  rw [quotientDen, quotientDen, mag_canonical, places_canonical]

theorem reducedNum_canonical (a b : Word) : reducedNum (canonicalWord a) (canonicalWord b) = reducedNum a b := by
  rw [reducedNum, reducedNum, quotientNum_canonical, quotientDen_canonical]

theorem reducedDen_canonical (a b : Word) : reducedDen (canonicalWord a) (canonicalWord b) = reducedDen a b := by
  rw [reducedDen, reducedDen, quotientNum_canonical, quotientDen_canonical]

theorem divPlaces_canonical (a b : Word) : divPlaces (canonicalWord a) (canonicalWord b) = divPlaces a b := by
  rw [divPlaces, divPlaces, reducedDen_canonical]

/-- A zero dividend has a zero numerator. -/
theorem mag_ne_zero_of_reducedNum {a b : Word} (h : reducedNum a b ≠ 0) : (scaled a).mag ≠ 0 := fun h0 =>
  h (by rw [reducedNum, quotientNum, h0, zero_mul, Nat.zero_div])

/-- DIV's answer to a non-zero divisor, in the reduced fraction. -/
theorem divResponse_of_ne_zero {b : Word} (hb : valueField b ≠ 0) (a : Word) :
    divResponse a b =
      if reducedDen a b ≠ 2 ^ exponentOf 2 (reducedDen a b) * 5 ^ exponentOf 5 (reducedDen a b) then
        .condition .inexactQuotient
      else
        .word (renormalize
          (exactOf (crossSign a b) (reducedNum a b * 10 ^ divPlaces a b / reducedDen a b) (divPlaces a b))) := by
  rw [divResponse, divExact_of_ne_zero hb]
  split_ifs <;> rfl

theorem divResponse_canonical (a b : Word) : divResponse (canonicalWord a) (canonicalWord b) = divResponse a b := by
  by_cases hb : valueField b = 0
  · rw [divResponse_of_zero hb, divResponse_of_zero ((valueField_canonical b).2 hb)]
  · have hb' : valueField (canonicalWord b) ≠ 0 := fun h => hb ((valueField_canonical b).1 h)
    rw [divResponse_of_ne_zero hb, divResponse_of_ne_zero hb', reducedDen_canonical, reducedNum_canonical,
      divPlaces_canonical]
    split
    · rfl
    · refine congrArg Response.word (renormalize_congr fun hm => crossSign_canonical ?_ ?_)
      · exact mag_ne_zero_of_reducedNum (b := b) fun h0 => hm (by rw [h0, zero_mul, Nat.zero_div])
      · exact fun h0 => hb ((scaled_mag_eq_zero_iff b).1 h0)

/-- Settles O43. -/
theorem operandsCountOnlyByTheirParts : Obligations.OperandsCountOnlyByTheirParts := by
  intro a b repack
  have hrepack (w : Word) : repack w = canonicalWord w := rfl
  simp only [hrepack, answer_add, answer_sub, answer_mul, answer_div, addWord_canonical, subWord_canonical,
    mulWord_canonical, divResponse_canonical, and_self]

/-! ### MUL (R123) -/

theorem mulWord_comm (a b : Word) : mulWord a b = mulWord b a := by
  rw [mulWord_eq, mulWord_eq, crossSign, crossSign, Bool.xor_comm, mul_comm, add_comm]

/-- Multiplying by 1 repacks the word. -/
theorem mulWord_one (a : Word) : mulWord a 0x00000001 = canonicalWord a := by
  rw [mulWord_eq, crossSign, scaled_word_one, Bool.xor_false, mul_one, add_zero]
  exact renormalize_exactOf_scaled a

theorem mulWord_zero (a : Word) : mulWord a 0x00000000 = 0 := by
  rw [mulWord_eq, scaled_word_zero, mul_zero, renormalize_exactOf_zero]

/-- Settles O46; in the rule's example `0.1 * 0.2` the triple is exact and the word is not. -/
theorem mulLawsAndExactness : Obligations.MulLawsAndExactness := by
  refine ⟨fun a b => ?_, fun a => ?_, fun a ha => ?_, fun a => ?_, fun a b => ⟨mulExact_val a b, ?_⟩, ?_, by decide⟩
  · rw [answer_mul, answer_mul, mulWord_comm]
  · rw [answer_mul, mulWord_one, canonicalWord]
  · rw [answer_mul, mulWord_one, canonicalWord_of_wellFormed ha]
  · rw [answer_mul, mulWord_zero]
  · rw [answer_mul, wordRegs_word, ← mulExact_val]
    exact wordVal_renormalize_iff (mulExact_frac_lt a b)
  · rw [mulExact_val, wordVal_of_scaled (show scaled 0x08000001 = ⟨false, 1, 1⟩ by decide),
      wordVal_of_scaled (show scaled 0x10000002 = ⟨false, 2, 1⟩ by decide)]
    norm_num [signFactor]

/-! ### Sizes (R107, R131) -/

/-- A magnitude with up to 8 places added. -/
theorem scaled_mag_mul_pow_lt (w : Word) {k : Nat} (hk : k ≤ 8) : (scaled w).mag * 10 ^ k < 2 ^ 80 := by
  have hpow : 10 ^ k ≤ 10 ^ 8 := Nat.pow_le_pow_right (by norm_num) hk
  calc (scaled w).mag * 10 ^ k ≤ (scaled w).mag * 10 ^ 8 := Nat.mul_le_mul_left _ hpow
    _ < 2 ^ 26 * 10 ^ 8 * 10 ^ 8 := Nat.mul_lt_mul_of_pos_right (scaled_mag_lt w) (by norm_num)
    _ < 2 ^ 80 := by norm_num

theorem commonPlaces_le (a b : Word) : commonPlaces a b ≤ 8 := max_le (scaled_places_le a) (scaled_places_le b)

theorem abs_alignedTotal_lt (w : Word) {d : Nat} (hd : d ≤ 8) : |alignedTotal w d| < 2 ^ 80 := by
  rw [Int.abs_eq_natAbs, alignedTotal_eq, natAbs_signed]
  exact_mod_cast scaled_mag_mul_pow_lt w ((Nat.sub_le _ _).trans hd)

theorem mul_mag_lt (a b : Word) : (scaled a).mag * (scaled b).mag < 2 ^ 106 :=
  (Nat.mul_lt_mul'' (scaled_mag_lt a) (scaled_mag_lt b)).trans (by norm_num)

theorem quotientNum_lt (a b : Word) : quotientNum a b < 2 ^ 80 := scaled_mag_mul_pow_lt a (scaled_places_le b)

theorem quotientDen_lt (a b : Word) : quotientDen a b < 2 ^ 80 := scaled_mag_mul_pow_lt b (scaled_places_le a)

/-- An exponent of a factor 2 or more is below the number's bit length. -/
theorem exponentOf_le {p n k : Nat} (hp : 2 ≤ p) (hpos : 0 < n) (h : n < 2 ^ (k + 1)) : exponentOf p n ≤ k := by
  have hle : 2 ^ exponentOf p n ≤ n :=
    (Nat.pow_le_pow_left hp _).trans (Nat.le_of_dvd hpos (exponentOf_dvd hp hpos))
  exact Nat.lt_succ_iff.1 ((Nat.pow_lt_pow_iff_right (by norm_num)).1 (hle.trans_lt h))

theorem divPlaces_le {a b : Word} (hb : valueField b ≠ 0) : divPlaces a b ≤ 79 := by
  have hpos := reducedDen_pos (a := a) hb
  have hlt : reducedDen a b < 2 ^ (79 + 1) := (Nat.div_le_self _ _).trans_lt (quotientDen_lt a b)
  exact max_le (exponentOf_le (by norm_num) hpos hlt) (exponentOf_le (by norm_num) hpos hlt)

/-- Cutting a magnitude at the point and putting it together again. -/
theorem exactOf_int_frac (neg : Bool) (m d : Nat) :
    (exactOf neg m d).int * 10 ^ (exactOf neg m d).places + (exactOf neg m d).frac = m :=
  Nat.div_add_mod' m (10 ^ d)

theorem ten_pow_79_lt : 10 ^ 79 < 2 ^ 263 :=
  calc 10 ^ 79 < 2 ^ 131 * 2 ^ 132 := by norm_num
    _ = 2 ^ 263 := (pow_add 2 131 132).symm

/-- An exact quotient is the reduced numerator with at most 79 places added. -/
theorem quotient_lt {a b : Word} {m k : Nat} (hb : valueField b ≠ 0) (hm : quotientIs a b m k) (hk : k ≤ 79) :
    m < 2 ^ 343 := by
  have hnum : reducedNum a b < 2 ^ 80 := (Nat.div_le_self _ _).trans_lt (quotientNum_lt a b)
  have hpow : 10 ^ k ≤ 10 ^ 79 := Nat.pow_le_pow_right (by norm_num) hk
  calc m ≤ m * reducedDen a b := Nat.le_mul_of_pos_right m (reducedDen_pos hb)
    _ = reducedNum a b * 10 ^ k := ((quotientIs_iff hb).1 hm).symm
    _ ≤ 2 ^ 80 * 10 ^ 79 := Nat.mul_le_mul hnum.le hpow
    _ < 2 ^ 80 * 2 ^ 263 := Nat.mul_lt_mul_of_pos_left ten_pow_79_lt (by positivity)
    _ = 2 ^ 343 := by rw [show 343 = 80 + 263 from rfl, pow_add]

/-- A fraction at 79 places or fewer. -/
theorem bitLength_frac_le {x : Exact} (hlt : x.frac < 10 ^ x.places) (hk : x.places ≤ 79) : bitLength x.frac ≤ 263 := by
  have hpow : 10 ^ x.places ≤ 10 ^ 79 := Nat.pow_le_pow_right (by norm_num) hk
  exact bitLength_le_iff.2 ((hlt.trans_le hpow).trans ten_pow_79_lt)

/-- A triple DIV packs is the quotient at its fewest digits, with the cross sign (R124, R126). -/
theorem eq_exactOf_of_divExact {a b : Word} {x : Exact} (h : divExact a b = .ok x) :
    ∃ m k, quotientIs a b m k ∧ (∀ j < k, ¬ ∃ n, quotientIs a b n j) ∧ x = exactOf (crossSign a b) m k := by
  rcases divExact_cases a b with ⟨-, e⟩ | ⟨-, -, e⟩ | ⟨-, m, k, hm, hk, e⟩ <;> cases e.symm.trans h
  exact ⟨m, k, hm, hk, rfl⟩

/-- The sizes of an exact quotient (R131). -/
theorem divExact_sizes {a b : Word} {x : Exact} (h : divExact a b = .ok x) :
    x.places ≤ 79 ∧ x.int * 10 ^ x.places + x.frac < 2 ^ 343 ∧ bitLength x.frac ≤ 263 := by
  obtain ⟨hb, -, hplaces⟩ := divExact_eq_ok h
  have hk : x.places ≤ 79 := hplaces ▸ divPlaces_le hb
  obtain ⟨m, k, hm, -, rfl⟩ := eq_exactOf_of_divExact h
  refine ⟨hk, ?_, bitLength_frac_le (exactOf_frac_lt _ _ _) hk⟩
  rw [exactOf_int_frac]
  exact quotient_lt hb hm hk

/-- Settles O52. -/
theorem engineSizesAreBounded : Obligations.EngineSizesAreBounded := by
  intro a b
  have ha := abs_alignedTotal_lt a (commonPlaces_le a b)
  have hb := abs_alignedTotal_lt b (commonPlaces_le a b)
  refine ⟨(abs_add_le _ _).trans_lt (by omega), (abs_sub _ _).trans_lt (by omega), mul_mag_lt a b, quotientNum_lt a b,
    quotientDen_lt a b, fun x => divExact_sizes⟩

end Sys2Proof.Machine
end

section
/-! PROOFS. When a quotient terminates, and the laws of DIV (spec 43_muldiv.md section 2): R128 to R130. -/

namespace Sys2Proof.Machine

/-! ### Terminating fractions (R128) -/

/-- `k` decimal digits hold a fraction in lowest terms exactly when its denominator divides `10^k`. -/
theorem exists_eq_div_ten_pow_iff {num den k : Nat} (hden : 0 < den) (hcop : Nat.Coprime num den) :
    (∃ m : Nat, (num : ℚ) / den = m / 10 ^ k) ↔ den ∣ 10 ^ k := by
  have hden' : (den : ℚ) ≠ 0 := by exact_mod_cast hden.ne'
  constructor
  · rintro ⟨m, hm⟩
    rw [div_eq_div_iff hden' (by positivity)] at hm
    have hnat : num * 10 ^ k = den * m := by rw [mul_comm den]; exact_mod_cast hm
    exact hcop.symm.dvd_of_dvd_mul_left ⟨m, hnat⟩
  · rintro ⟨c, hc⟩
    refine ⟨num * c, ?_⟩
    rw [div_eq_div_iff hden' (by positivity)]
    have hnat : num * 10 ^ k = num * c * den := by rw [hc]; ring
    exact_mod_cast hnat

/-- The test of R124, for any digit count: the denominator is the product of the powers of 2 and 5 in it. -/
theorem exists_terminating_iff {num den : Nat} (hden : 0 < den) (hcop : Nat.Coprime num den) :
    (∃ m k : Nat, (num : ℚ) / den = m / 10 ^ k) ↔ den = 2 ^ exponentOf 2 den * 5 ^ exponentOf 5 den := by
  rw [exists_comm]
  simp only [exists_eq_div_ten_pow_iff hden hcop, dvd_ten_pow_iff hden]
  exact ⟨fun ⟨_, h, _⟩ => h, fun h => ⟨_, h, le_rfl⟩⟩

/-- Where a factor `q` is left beside the powers of `p` in `n`, it holds no further `p`. -/
theorem not_dvd_of_cofactor {p n c q : Nat} (hp : 2 ≤ p) (hpos : 0 < n) (h : n = p ^ exponentOf p n * c * q) : ¬ p ∣ q := by
  rintro ⟨d, rfl⟩
  refine not_dvd_exponentOf_succ hp hpos ⟨c * d, ?_⟩
  rw [pow_succ]
  calc n = p ^ exponentOf p n * c * (p * d) := h
    _ = p ^ exponentOf p n * p * (c * d) := by ring

/-- The same test by prime factors: what is left beside the powers of 2 and 5 has no prime factor, so it is 1. -/
theorem eq_twos_fives_iff {n : Nat} (hpos : 0 < n) :
    n = 2 ^ exponentOf 2 n * 5 ^ exponentOf 5 n ↔ ∀ p : Nat, p.Prime → p ∣ n → p = 2 ∨ p = 5 := by
  constructor
  · intro h p hp hdvd
    rw [h] at hdvd
    rcases hp.dvd_mul.1 hdvd with h2 | h5
    · exact .inl ((Nat.prime_dvd_prime_iff_eq hp Nat.prime_two).1 (hp.dvd_of_dvd_pow h2))
    · exact .inr ((Nat.prime_dvd_prime_iff_eq hp Nat.prime_five).1 (hp.dvd_of_dvd_pow h5))
  · intro h
    have hcop : Nat.Coprime (2 ^ exponentOf 2 n) (5 ^ exponentOf 5 n) := Nat.Coprime.pow _ _ (by norm_num)
    obtain ⟨q, hq⟩ := hcop.mul_dvd_of_dvd_of_dvd (exponentOf_dvd (by norm_num) hpos) (exponentOf_dvd (by norm_num) hpos)
    have hq1 : q = 1 := by
      by_contra hne
      obtain ⟨p, hp, hpq⟩ := Nat.exists_prime_and_dvd hne
      rcases h p hp (hq ▸ hpq.mul_left _) with rfl | rfl
      · exact not_dvd_of_cofactor le_rfl hpos hq hpq
      · exact not_dvd_of_cofactor (by norm_num) hpos (hq.trans (by rw [mul_comm (2 ^ _)])) hpq
    rwa [hq1, mul_one] at hq

/-- Settles O50. -/
theorem terminatingFractionsAreTwosAndFives : Obligations.TerminatingFractionsAreTwosAndFives := by
  intro num den hden hcop
  have hterm := exists_terminating_iff hden hcop
  refine ⟨hterm.trans (eq_twos_fives_iff hden), hterm, fun h => ⟨?_, fun k hk => ?_⟩⟩
  · exact (exists_eq_div_ten_pow_iff hden hcop).2 ((dvd_ten_pow_iff hden).2 ⟨hterm.1 h, le_rfl⟩)
  · exact ((dvd_ten_pow_iff hden).1 ((exists_eq_div_ten_pow_iff hden hcop).1 hk)).2

/-! ### The triple DIV packs (R129, R130) -/

theorem inv_signFactor (neg : Bool) : (signFactor neg)⁻¹ = signFactor neg := by
  cases neg <;> norm_num [signFactor]

theorem wordVal_eq_sign_mul_abs (w : Word) : wordVal w = signFactor (signBit w) * |wordVal w| := by
  rw [abs_wordVal]
  exact wordVal_eq w

theorem crossSign_eq (a b : Word) : crossSign a b = xor (signBit a) (signBit b) := rfl

/-- A quotient of magnitudes with the cross sign is the quotient of the words' numbers. -/
theorem exactOf_crossSign_val {a b : Word} {m k : Nat} (h : quotientIs a b m k) :
    (exactOf (crossSign a b) m k).val = wordVal a / wordVal b := by
  calc (exactOf (crossSign a b) m k).val
      = signFactor (signBit a) * signFactor (signBit b) * (|wordVal a| / |wordVal b|) := by
        rw [exactOf_val, crossSign_eq, signFactor_xor, h]
    _ = signFactor (signBit a) * |wordVal a| / (signFactor (signBit b) * |wordVal b|) := by
        rw [mul_div_mul_comm, div_eq_mul_inv (signFactor _), inv_signFactor]
    _ = wordVal a / wordVal b := by rw [← wordVal_eq_sign_mul_abs, ← wordVal_eq_sign_mul_abs]

theorem answer_div_of_ok {a b : Word} {x : Exact} (h : divExact a b = .ok x) :
    answer (.div a b) = wordRegs (renormalize x) := by
  rw [answer_div, divResponse, h]
  rfl

/-- Before it packs, DIV has the exact quotient; its word denotes it under the condition of R110. -/
theorem divExact_exactness {a b : Word} {x : Exact} (h : divExact a b = .ok x) :
    x.val = wordVal a / wordVal b ∧
      (wordVal (renormalize x) = wordVal a / wordVal b ↔ fits x.int x.frac ∧ x.fullFraction) := by
  obtain ⟨m, k, hm, -, rfl⟩ := eq_exactOf_of_divExact h
  rw [← exactOf_crossSign_val hm]
  exact ⟨rfl, wordVal_renormalize_iff (exactOf_frac_lt _ _ _)⟩

/-- Status 0 means a triple was packed. -/
theorem exists_divExact_of_status {a b : Word} (h : (answer (.div a b)).status = 0) : ∃ x, divExact a b = .ok x := by
  rw [answer_div, divResponse] at h
  cases hx : divExact a b with
  | ok x => exact ⟨x, rfl⟩
  | error c =>
    rw [hx] at h
    exact absurd h (conditionCode_ne_zero c)

/-- `pack` clears the sign it is asked for exactly when the value field it packs is 0 (R75). -/
theorem signBit_pack_eq (neg : Bool) (iv fv : Nat) :
    signBit (pack neg iv fv) = (neg && decide (valueField (pack neg iv fv) ≠ 0)) := by
  rw [signBit_pack, valueField_pack]
  exact congrArg (neg && ·) (Bool.eq_iff_iff.2 (bne_iff_ne.trans decide_eq_true_iff.symm))

/-- The sign of a quotient is the XOR of the operand signs, cleared by `pack` with a zero value field. -/
theorem signBit_div {a b : Word} (h : (answer (.div a b)).status = 0) :
    signBit (answer (.div a b)).word =
      (xor (signBit a) (signBit b) && decide (valueField (answer (.div a b)).word ≠ 0)) := by
  obtain ⟨x, hx⟩ := exists_divExact_of_status h
  obtain ⟨m, k, -, -, rfl⟩ := eq_exactOf_of_divExact hx
  rw [answer_div_of_ok hx, wordRegs_word, renormalize, signBit_pack_eq]
  rfl

/-- A word that is not zero divides into itself once. -/
theorem answer_div_self {a : Word} (h : valueField a ≠ 0) : answer (.div a a) = wordRegs 0x00000001 := by
  have hone : quotientIs a a 1 0 := by
    rw [quotientIs, div_self (abs_ne_zero.2 fun h0 => h ((wordVal_eq_zero_iff a).1 h0))]
    norm_num
  rw [answer_div_of_ok (divExact_of_fewest h hone (by simp)), crossSign_eq, Bool.xor_self]
  decide

/-! ### Dividing by 1 (R130) -/

theorem wordVal_word_one : wordVal 0x00000001 = 1 := by
  rw [wordVal_of_scaled scaled_word_one]
  norm_num [signFactor]

theorem quotientIs_one (a : Word) : quotientIs a 0x00000001 (scaled a).mag (scaled a).places := by
  rw [quotientIs, wordVal_word_one, abs_one, div_one, abs_wordVal]

/-- Quotient digits beyond the fewest are trailing zeros. -/
theorem quotientIs_trailing_zeros {a b : Word} {m n k d : Nat} (hm : quotientIs a b m k) (hn : quotientIs a b n d)
    (hkd : k ≤ d) : n = m * 10 ^ (d - k) := by
  obtain ⟨j, rfl⟩ := Nat.exists_eq_add_of_le hkd
  have h := hm.symm.trans hn
  rw [div_eq_div_iff (by positivity) (by positivity)] at h
  have hnat : m * 10 ^ (k + j) = n * 10 ^ k := by exact_mod_cast h
  rw [pow_add, mul_comm (10 ^ k), ← mul_assoc] at hnat
  rw [Nat.add_sub_cancel_left]
  exact (Nat.eq_of_mul_eq_mul_right (by positivity) hnat).symm

/-- Trailing zeros of a magnitude are trailing zeros of its fraction, and leave the integer part alone. -/
theorem cut_mul_ten_pow (m k j : Nat) :
    m * 10 ^ j / 10 ^ (k + j) = m / 10 ^ k ∧ m * 10 ^ j % 10 ^ (k + j) = m % 10 ^ k * 10 ^ j := by
  rw [pow_add]
  exact ⟨Nat.mul_div_mul_right _ _ (by positivity), Nat.mul_mod_mul_right _ _ _⟩

/-- The fewest digits of a word's own number: its parts with `j` trailing zeros of the fraction dropped. -/
theorem exists_trimmed (a : Word) : ∃ m k j,
    quotientIs a 0x00000001 m k ∧ (∀ i < k, ¬ ∃ n, quotientIs a 0x00000001 n i) ∧ (scaled a).places = k + j ∧
      (unpack a).int = m / 10 ^ k ∧ (unpack a).frac = m % 10 ^ k * 10 ^ j := by
  obtain ⟨m, hm, hleast⟩ := exists_fewest (b := 0x00000001) (by decide) ⟨_, _, quotientIs_one a⟩
  have hle : divPlaces a 0x00000001 ≤ (scaled a).places :=
    not_lt.1 fun hlt => hleast _ hlt ⟨_, quotientIs_one a⟩
  obtain ⟨j, hj⟩ := Nat.exists_eq_add_of_le hle
  have hmag : (scaled a).mag = m * 10 ^ j := by
    rw [quotientIs_trailing_zeros hm (quotientIs_one a) hle, hj, Nat.add_sub_cancel_left]
  obtain ⟨hint, hfrac⟩ := scaled_mag_split a
  rw [hmag, hj] at hint hfrac
  obtain ⟨hcutInt, hcutFrac⟩ := cut_mul_ten_pow m (divPlaces a 0x00000001) j
  exact ⟨m, _, j, hm, hleast, hj, hint.symm.trans hcutInt, hfrac.symm.trans hcutFrac⟩

/-- A fraction without its trailing zeros fits where the fraction does, and has a leading zero only if it did. -/
theorem fits_fullFraction_of_trimmed {iv f k j : Nat} (hfits : fits iv (f * 10 ^ j))
    (hdigits : decDigits (f * 10 ^ j) = k + j) : fits iv f ∧ (f = 0 ∨ decDigits f = k) := by
  refine ⟨(Nat.add_le_add_left (bitLength_mono (Nat.le_mul_of_pos_right f (by positivity))) _).trans hfits, ?_⟩
  rcases Nat.eq_zero_or_pos f with h0 | hpos
  · exact .inl h0
  · rw [decDigits_mul_pow hpos] at hdigits
    exact .inr (Nat.add_right_cancel hdigits)

/-- Dividing by 1 keeps the number and drops the trailing zeros of the fraction. -/
theorem answer_div_one (a : Word) :
    (answer (.div a 0x00000001)).status = 0 ∧ wordVal (answer (.div a 0x00000001)).word = wordVal a ∧
      ((unpack (answer (.div a 0x00000001)).word).frac = 0 ∨
        (unpack (answer (.div a 0x00000001)).word).frac % 10 ≠ 0) := by
  obtain ⟨m, k, j, hm, hleast, hplaces, hint, hfrac⟩ := exists_trimmed a
  have hx := divExact_of_fewest (by decide) hm hleast
  have hfits := fits_unpack a
  rw [scaled_places, hfrac] at hplaces
  rw [hint, hfrac] at hfits
  have htrim := fits_fullFraction_of_trimmed hfits hplaces
  have hexact := (divExact_exactness hx).2.2 htrim
  rw [answer_div_of_ok hx, wordRegs_word]
  refine ⟨rfl, ?_, ?_⟩
  · rw [hexact, wordVal_word_one, div_one]
  · rw [renormalize, exactOf, unpack_pack _ htrim.1]
    exact frac_no_trailing_zero_of_fewest hm hleast

/-- Settles O51; `1 / 0` raises a condition, and `0.1 * 0.2 / 0.2` is `1` because the product lost a leading zero. -/
theorem divLawsAndExactness : Obligations.DivLawsAndExactness := by
  refine ⟨fun a b x hx => ?_, fun a b => exists_divExact_of_status, fun a b => signBit_div, fun a => answer_div_self,
    answer_div_one, by decide, fun a b => ⟨?_, ?_, ?_⟩, ⟨0x00000001, 0x00000000, by decide⟩,
    0x08000001, 0x10000002, by decide⟩
  · rw [answer_div_of_ok hx]
    exact ⟨rfl, divExact_exactness hx⟩
  · rw [answer_add, wordRegs_status]
  · rw [answer_sub, wordRegs_status]
  · rw [answer_mul, wordRegs_status]

end Sys2Proof.Machine
end

section
/-! PROOFS. NEG's properties, and NEG beside the engine (spec 44_negate.md): R141 and R142. -/

namespace Sys2Proof.Machine

/-! ### NEG alone (R141) -/

theorem negWord_negWord (w : Word) : negWord (negWord w) = w := by
  refine word_ext ?_ ?_ ?_
  · rw [pointerField_negWord, pointerField_negWord]
  · rw [signBit_negWord, signBit_negWord, valueField_negWord]
    split
    · rfl
    · exact Bool.not_not _
  · rw [valueField_negWord, valueField_negWord]

theorem wellFormed_negWord {w : Word} (h : wordWellFormed w = true) : wordWellFormed (negWord w) = true := by
  rw [wordWellFormed_iff] at h ⊢
  obtain ⟨hptr, htop, hsign⟩ := h
  rw [pointerField_negWord, valueField_negWord]
  refine ⟨hptr, htop, fun h0 => ?_⟩
  rw [negWord_of_zero h0]
  exact hsign h0

theorem signFactor_not (neg : Bool) : signFactor (!neg) = -signFactor neg := by
  cases neg <;> norm_num [signFactor]

theorem wordVal_negWord (w : Word) : wordVal (negWord w) = -wordVal w := by
  by_cases h : valueField w = 0
  · rw [negWord_of_zero h, (wordVal_eq_zero_iff w).2 h, neg_zero]
  · rw [wordVal_eq, wordVal_eq, signBit_negWord, if_neg h, scaled_negWord_mag, scaled_negWord_places, signFactor_not,
      neg_mul]

/-- The printed string of the negation: the same digits after the other sign. -/
theorem decodeString_negWord {w : Word} (h : valueField w ≠ 0) :
    decodeString (negWord w) = canonicalSpelling (!signBit w) (unpack w).int (unpack w).frac := by
  rw [decodeString_eq, signBit_negWord, if_neg h, unpack_negWord_int, unpack_negWord_frac]

theorem canonicalSpelling_true (iv fv : Nat) : canonicalSpelling true iv fv = 0x2D :: canonicalSpelling false iv fv := rfl

/-- Settles O54; the string without a sign is the canonical spelling of the parts. -/
theorem negProperties : Obligations.NegProperties := by
  intro w
  simp only [answer_neg, answer_decode, wordRegs_word]
  refine ⟨by rw [negWord_negWord], wellFormed_negWord, wordVal_negWord w, fun h =>
    ⟨canonicalSpelling false (unpack w).int (unpack w).frac, ?_, fun hs => ?_, fun hs => ?_⟩⟩
  · have := decDigits_add_le w
    rw [length_canonicalSpelling, Bool.toNat_false]
    omega
  · rw [decodeString_negWord h, decodeString_eq, hs, Bool.not_false, canonicalSpelling_true]
    exact ⟨rfl, rfl⟩
  · rw [decodeString_negWord h, decodeString_eq, hs, Bool.not_true, canonicalSpelling_true]
    exact ⟨rfl, rfl⟩

/-! ### NEG and the engine (R142) -/

/-- NEG makes no negative zero of a word that is none: it leaves a zero as it was. -/
theorem not_negativeZero_negWord {w : Word} (h : ¬ negativeZero w) : ¬ negativeZero (negWord w) := by
  rintro ⟨hsign, hvalue⟩
  rw [valueField_negWord] at hvalue
  rw [negWord_of_zero hvalue] at hsign
  exact h ⟨hsign, hvalue⟩

/-- ENCODE and the engine get their words from `pack`, and NEG keeps the invariant. -/
theorem not_negativeZero_of_produced {w : Word} (h : Produced w) : ¬ negativeZero w := by
  induction h with
  | byEncode he =>
    obtain ⟨neg, iv, fv, rfl⟩ := encodeResponse_eq_word he
    exact not_negativeZero_pack neg iv fv
  | byAdd => exact not_negativeZero_renormalize _
  | bySub => exact not_negativeZero_renormalize _
  | byMul => exact not_negativeZero_renormalize _
  | byDiv _ _ hd =>
    obtain ⟨neg, iv, fv, rfl⟩ := divResponse_eq_word hd
    exact not_negativeZero_pack neg iv fv
  | byNeg _ ih => exact not_negativeZero_negWord ih

/-- Settles O55; a word and its negation add to what the word less itself gives. -/
theorem negAgreesWithTheEngine : Obligations.NegAgreesWithTheEngine := by
  refine ⟨fun a b => ?_, fun a => ?_, fun b hb => ?_, fun w => not_negativeZero_of_produced⟩
  · rw [answer_sub, answer_add, answer_neg, wordRegs_word, addWord_negWord]
  · rw [answer_add, answer_neg, wordRegs_word, addWord_negWord, subWord_self]
  · rw [answer_neg, negWord_of_zero hb]

end Sys2Proof.Machine
end
